-- ==== Sys2Proof/Word.lean ====
section
/-! DEFINITION. The word the host port carries, and the index of an operand register. -/

namespace Sys2Proof

/-- The unit of transfer of the host port and the length of a command: 32 bits, bit 0 least
significant (20_memory.md R55, 30_encoding.md R80). -/
abbrev Word := BitVec 32

/-- One byte, where a platform maps the port onto a byte-addressed bus (20_memory.md R55 (b)). -/
abbrev Byte := BitVec 8

/-- The index of an operand register: 4 bits unsigned, all 16 values valid (30_encoding.md R83). -/
abbrev Reg := Fin 16

end Sys2Proof
end

