-- ==== Sys2Proof/Syntax.lean ====
section
/-! DEFINITION. The six commands of the opcode table, one constructor per row, operands in the
field order rd, ra, rb, rn of 30_encoding.md R89. -/

namespace Sys2Proof

inductive Instr where
  /-- MULMOD xd, xa, xb, xn (format Q, R100) -/
  | mulmod (rd ra rb rn : Reg)
  /-- MONTMUL xd, xa, xb, xn (format Q, R103) -/
  | montmul (rd ra rb rn : Reg)
  /-- MODEXP xd, xa, xb, xn (format Q, R120) -/
  | modexp (rd ra rb rn : Reg)
  /-- MODEXPC xd, xa, xb, xn (format Q, R123) -/
  | modexpc (rd ra rb rn : Reg)
  /-- MODINV xd, xa, xn (format T, R140) -/
  | modinv (rd ra rn : Reg)
  /-- PRIMETEST xd, xa (format D, R160) -/
  | primetest (rd ra : Reg)
  deriving DecidableEq, Repr

/-- The destination register a command names. -/
def Instr.dest : Instr → Reg
  | .mulmod rd _ _ _ => rd
  | .montmul rd _ _ _ => rd
  | .modexp rd _ _ _ => rd
  | .modexpc rd _ _ _ => rd
  | .modinv rd _ _ => rd
  | .primetest rd _ => rd

/-- The source registers a command's format reads (30_encoding.md R82, 10_state.md R21). -/
def Instr.sources : Instr → List Reg
  | .mulmod _ ra rb rn => [ra, rb, rn]
  | .montmul _ ra rb rn => [ra, rb, rn]
  | .modexp _ ra rb rn => [ra, rb, rn]
  | .modexpc _ ra rb rn => [ra, rb, rn]
  | .modinv _ ra rn => [ra, rn]
  | .primetest _ ra => [ra]

end Sys2Proof
end

