-- ==== Sys2Proof/WellFormed.lean ====
section
/-! DEFINITION. Which terms are well formed. A register field is a `Reg`, so every `Instr` names
sixteen valid registers at most and none is ill formed; what can be ill formed is a command WORD,
and 30_encoding.md R85's match and mask table says which words are legal. `Decode.lean` is written
from R86 and not from this table: that the two agree is a statement, not a definition. -/

namespace Sys2Proof

/-- A row of the match and mask table of 30_encoding.md R85. -/
structure TableRow where
  mnemonic : String
  mask : Word
  pattern : Word
  deriving DecidableEq, Repr

/-- A word belongs to a row iff `w AND mask = match` (R85). -/
def TableRow.covers (row : TableRow) (w : Word) : Bool := w &&& row.mask == row.pattern

/-- 30_encoding.md R85. -/
def opcodeTable : List TableRow :=
  [ ⟨"MULMOD",    0xFF0000FF#32, 0x01000000#32⟩,
    ⟨"MONTMUL",   0xFF0000FF#32, 0x02000000#32⟩,
    ⟨"MODEXP",    0xFF0000FF#32, 0x03000000#32⟩,
    ⟨"MODEXPC",   0xFF0000FF#32, 0x04000000#32⟩,
    ⟨"MODINV",    0xFF00F0FF#32, 0x05000000#32⟩,
    ⟨"PRIMETEST", 0xFF00FFFF#32, 0x06000000#32⟩ ]

/-- The legal command words: those some row of the table covers (R85, R87). -/
def legalWord (w : Word) : Bool := opcodeTable.any fun row => row.covers w

/-- The mnemonic of a command in the opcode table. -/
def Instr.mnemonic : Instr → String
  | .mulmod .. => "MULMOD"
  | .montmul .. => "MONTMUL"
  | .modexp .. => "MODEXP"
  | .modexpc .. => "MODEXPC"
  | .modinv .. => "MODINV"
  | .primetest .. => "PRIMETEST"

end Sys2Proof
end

