-- ==== Sys2Proof/Decode.lean ====
section
/-! DEFINITION. The decoder of 30_encoding.md R86, total on 32-bit words and rejecting by name, the
encoder written from R81 and R82, and the byte form of R55 (b). -/

namespace Sys2Proof

/-- Why a word is no command (30_encoding.md R87). The machine answers every one of them alike, with
the error completion ILLEGAL_CMD; the names only say which clause of R87 applies. -/
inductive Illegal where
  /-- bits 7:0 are not zero -/
  | nonzeroZ
  /-- opcode 0x00 or 0x07 to 0xFF -/
  | reservedOpcode
  /-- MODINV with rb ≠ 0 -/
  | modinvNonzeroRb
  /-- PRIMETEST with rb ≠ 0 or rn ≠ 0 -/
  | primetestNonzeroRbRn
  /-- fewer than four bytes: not a word at all (only `decodeBytes` answers this) -/
  | truncated
  deriving DecidableEq, Repr

/-- `w[lo + n - 1 : lo]` as an unsigned number (00_scope.md R10). -/
def bitField (w : Word) (lo n : Nat) : Nat := w.toNat / 2 ^ lo % 2 ^ n

/-- A 4-bit register field, taken as it stands (30_encoding.md R83). -/
def regField (w : Word) (lo : Nat) : Reg := Fin.ofNat 16 (bitField w lo 4)

/-- 30_encoding.md R86, clause by clause and in its order. -/
def decode (w : Word) : Except Illegal Instr :=
  let op := bitField w 24 8
  let rd := regField w 20
  let ra := regField w 16
  let rb := regField w 12
  let rn := regField w 8
  if bitField w 0 8 ≠ 0 then .error .nonzeroZ
  else if op = 0x01 then .ok (.mulmod rd ra rb rn)
  else if op = 0x02 then .ok (.montmul rd ra rb rn)
  else if op = 0x03 then .ok (.modexp rd ra rb rn)
  else if op = 0x04 then .ok (.modexpc rd ra rb rn)
  else if op = 0x05 then
    if rb = 0 then .ok (.modinv rd ra rn) else .error .modinvNonzeroRb
  else if op = 0x06 then
    if rb = 0 ∧ rn = 0 then .ok (.primetest rd ra) else .error .primetestNonzeroRbRn
  else .error .reservedOpcode

/-- Whether a word is illegal (30_encoding.md R87). -/
def isIllegal (w : Word) : Bool :=
  match decode w with
  | .ok _ => false
  | .error _ => true

/-- A word from its fields, `op·2^24 + rd·2^20 + ra·2^16 + rb·2^12 + rn·2^8` with `z = 0`
(30_encoding.md R81). -/
def packWord (op : Nat) (rd ra rb rn : Reg) : Word :=
  BitVec.ofNat 32
    (op * 2 ^ 24 + rd.val * 2 ^ 20 + ra.val * 2 ^ 16 + rb.val * 2 ^ 12 + rn.val * 2 ^ 8)

/-- The word of a command; a field its format does not use is zero (30_encoding.md R82, R84). -/
def encode : Instr → Word
  | .mulmod rd ra rb rn => packWord 0x01 rd ra rb rn
  | .montmul rd ra rb rn => packWord 0x02 rd ra rb rn
  | .modexp rd ra rb rn => packWord 0x03 rd ra rb rn
  | .modexpc rd ra rb rn => packWord 0x04 rd ra rb rn
  | .modinv rd ra rn => packWord 0x05 rd ra 0 rn
  | .primetest rd ra => packWord 0x06 rd ra 0 0

/-- The four bytes of a word on a byte-addressed bus, lowest address first: the byte at the lowest
address is bits 7:0 (20_memory.md R55 (b)). -/
def wordBytes (w : Word) : List Byte :=
  [BitVec.ofNat 8 (bitField w 0 8), BitVec.ofNat 8 (bitField w 8 8),
   BitVec.ofNat 8 (bitField w 16 8), BitVec.ofNat 8 (bitField w 24 8)]

/-- The word of four bytes in that order. -/
def wordOfBytes (b0 b1 b2 b3 : Byte) : Word :=
  BitVec.ofNat 32 (b0.toNat + b1.toNat * 2 ^ 8 + b2.toNat * 2 ^ 16 + b3.toNat * 2 ^ 24)

/-- The decoder on bytes: one command is exactly four bytes (30_encoding.md R80), the rest is
handed back. -/
def decodeBytes : List Byte → Except Illegal (Instr × List Byte)
  | b0 :: b1 :: b2 :: b3 :: rest =>
    (decode (wordOfBytes b0 b1 b2 b3)).map fun i => (i, rest)
  | _ => .error .truncated

/-- The command word whose bits the opcode table numbers `w`, the bits above `nbits` zero. -/
def tableWord (nbits w : Nat) : Word := BitVec.ofNat 32 (w % 2 ^ nbits)

/-- What the decoder reads from the word that spec/opcode_table.json numbers `w`; a number longer
than the one command length, 32 bits, is no command (30_encoding.md R80). -/
def decodeTableWord (nbits w : Nat) : Option Instr :=
  if nbits ≤ 32 then
    match decodeBytes (wordBytes (tableWord nbits w)) with
    | .ok (i, _) => some i
    | .error _ => none
  else none

end Sys2Proof
end

