-- ==== Sys2Proof/Machine/Arith.lean ====
section
/-! DEFINITION. The arithmetic of the six commands on natural numbers, each computed by the method
the spec names so that it can be evaluated: square-and-multiply (41_modexp.md R121), extended Euclid
(42_modinv.md R142), trial division (43_primetest.md R162). What binds is the value each command
rule gives (92_eei_decisions.md D36); the lemmas of Laws/Arith.lean say these functions have it. -/

namespace Sys2Proof.Machine

/-- The exact product reduced (40_modmul.md R100). -/
def mulMod (a b n : Nat) : Nat := a * b % n

/-- The loop of 41_modexp.md R121, low exponent bit first; `fuel` bounds the bits of `exp`. -/
def squareMultiply (n : Nat) : Nat → Nat → Nat → Nat → Nat
  | 0, result, _, _ => result
  | fuel + 1, result, base, exp =>
    if exp = 0 then result
    else
      squareMultiply n fuel (if exp % 2 = 1 then mulMod result base n else result)
        (mulMod base base n) (exp / 2)

/-- `c ^ d mod n` (41_modexp.md R120, R121). -/
def powMod (c d n : Nat) : Nat := squareMultiply n (Nat.log2 d + 1) (1 % n) (c % n) d

/-- The loop of 42_modinv.md R142 on `(r0, r1)` and `(t0, t1)`, answering the last `r0` and `t0`;
the remainders strictly decrease, so `fuel = r1` is enough. -/
def extEuclid : Nat → Nat → Nat → Int → Int → Nat × Int
  | 0, r0, _, t0, _ => (r0, t0)
  | fuel + 1, r0, r1, t0, t1 =>
    if r1 = 0 then (r0, t0)
    else extEuclid fuel r1 (r0 % r1) t1 (t0 - (r0 / r1 : Nat) * t1)

/-- The inverse of `e` modulo `phi` in `[0, phi)`, where there is one (42_modinv.md R142). -/
def modInv? (e phi : Nat) : Option Nat :=
  if phi = 0 then none
  else
    let (g, t) := extEuclid phi phi (e % phi) 0 1
    if g = 1 then some (t % phi).toNat else none

/-- `Rinv`, the inverse of `2^w` modulo an odd `n` (40_modmul.md R103). -/
def radixInv (w n : Nat) : Nat := (modInv? (2 ^ w) n).getD 0

/-- The Montgomery product with radix `2^w` for an odd modulus (40_modmul.md R103). -/
def montMul (w a b n : Nat) : Nat := a * b * radixInv w n % n

/-- The REDC listing of 40_modmul.md R104, for `a, b < n`. No command is defined by it. -/
def redc (w a b n : Nat) : Nat :=
  let n' := (2 ^ w - (modInv? n (2 ^ w)).getD 0) % 2 ^ w
  let T := a * b
  let m := T % 2 ^ w * n' % 2 ^ w
  let t := (T + m * n) / 2 ^ w
  if t ≥ n then t - n else t

/-- The loop of 43_primetest.md R162 from divisor `i`: no odd `i, i + 2, ..` with `i · i ≤ n` divides
`n`. `fuel` bounds the divisors tried. -/
def noOddDivisor (n : Nat) : Nat → Nat → Bool
  | 0, _ => true
  | fuel + 1, i =>
    if i * i ≤ n then
      if n % i = 0 then false else noOddDivisor n fuel (i + 2)
    else true

/-- The verdict of 43_primetest.md R160 and R162. -/
def isPrime (n : Nat) : Bool :=
  if n < 2 then false
  else if n = 2 then true
  else if n % 2 = 0 then false
  else noOddDivisor n n 3

end Sys2Proof.Machine
end

