-- ==== Sys2Proof/Config.lean ====
section
/-! DEFINITION. What is fixed for every build: the register count, the range of the operand width,
the reference configuration and the address map. The operand width itself is open: it is plain data
of `State` (`words`, W / 32), so that every statement holds for every build (log 1). The block has no
free value (00_scope.md R14 item 6); the one opaque constant here belongs to the host's text codec. -/

namespace Sys2Proof.Config

/-- Number of operand registers (00_scope.md R7). -/
def nreg : Nat := 16

/-- Least `W / 32` (00_scope.md R6: 32 ≤ W). -/
def minWords : Nat := 1

/-- Greatest `W / 32` (00_scope.md R6: W ≤ 1920). -/
def maxWords : Nat := 60

/-- `W / 32` of the reference configuration, W = 64 (00_scope.md R6). DESIGN CHOICE for
`State.reset` only (log 1). -/
def referenceWords : Nat := 2

/-- Offset of CMD (10_state.md R24). -/
def cmdOff : Nat := 0x000

/-- Offset of STATUS (10_state.md R24). -/
def statusOff : Nat := 0x004

/-- Offset of CTRL (10_state.md R24). -/
def ctrlOff : Nat := 0x008

/-- Offset of PARAM (10_state.md R24). -/
def paramOff : Nat := 0x00C

/-- First offset of the operand window (20_memory.md R51). -/
def operandOff : Nat := 0x100

/-- Size of the decoded window in bytes, 4 KiB (20_memory.md R50). -/
def windowBytes : Nat := 0x1000

/-- The character the host's `integersToText` gives for a number that is no Unicode scalar value (a
surrogate, or above 0x10FFFF). 45_host_procedures.md R188 states none: a free value, DESIGN CHOICE
(log 24). -/
opaque charOfNoCodePoint : Nat → Char

end Sys2Proof.Config
end

