-- ==== Sys2Proof/Machine/State.lean ====
section
/-! DEFINITION. The state of the block as plain data, the events its three agents bring, the reasons
a step can stop, and the state after reset. -/

namespace Sys2Proof.Machine

/-- The six values STATUS.ECODE can hold (60_exceptions.md R202; codes 6 to 15 are never produced,
93_implementation_defined.md V9). -/
inductive ECode where
  /-- 0: last completion normal, or none since reset or since DONE was cleared -/
  | none
  /-- 1: the accepted word decodes as illegal -/
  | illegalCmd
  /-- 2: modulus 0 in MULMOD, MONTMUL or MODEXP -/
  | modZero
  /-- 3: MODEXPC with x[ra] ≥ x[rn] -/
  | msgTooLarge
  /-- 4: MODINV with gcd ≠ 1, or with modulus 0 -/
  | invUndefined
  /-- 5: MONTMUL with x[rn] even and nonzero -/
  | modEven
  deriving DecidableEq, Repr

/-- Accesses that are no aligned-word transaction by their width (20_memory.md R55, R56). -/
inductive OtherWidth where
  | byte
  | halfword
  /-- anything wider than 32 bits, a 64-bit burst for one -/
  | wide
  deriving DecidableEq, Repr

/-- What the host presents at the port (20_memory.md R50). Offsets are byte offsets from BASE and are
not restricted here: which of them are transactions is the port's to say (R56). -/
inductive HostOp where
  /-- HostRead(off) -/
  | read (off : Nat)
  /-- HostWrite(off, v) -/
  | write (off : Nat) (v : Word)
  /-- an access of another width: outside the interface -/
  | otherWidth (width : OtherWidth) (off : Nat)
  deriving DecidableEq, Repr

/-- One step of one of the three agents (00_scope.md R14, 20_memory.md R61). -/
inductive Event where
  /-- the host's next access -/
  | host (op : HostOp)
  /-- the engine completes the command in flight -/
  | complete
  /-- the platform applies reset -/
  | reset
  deriving DecidableEq, Repr

/-- The whole state. Everything but the last two fields is the spec's; `schedule` and `reads` are the
model's own, the block's surroundings (log 3, log 4). -/
structure State where
  /-- PARAM.WORDS, W / 32: the build's operand width, never written (10_state.md R29, log 1) -/
  words : Nat
  /-- operand registers x[0] .. x[15], unsigned values below 2^W (10_state.md R20, log 2) -/
  x : Vector Nat 16
  /-- STATUS.BUSY (R26) -/
  busy : Bool
  /-- STATUS.DONE (R26) -/
  done : Bool
  /-- STATUS.ERR (R26) -/
  err : Bool
  /-- STATUS.OVR (R26) -/
  ovr : Bool
  /-- STATUS.ECODE (R26) -/
  ecode : ECode
  /-- CTRL.IE (R28) -/
  ie : Bool
  /-- the command word accepted and not yet completed (R30) -/
  inflight : Option Word
  /-- what the agents will do, in order: the host's transactions as delivered, with the completions
  and resets that fall between them (20_memory.md R61, R64; log 3) -/
  schedule : List Event
  /-- the values the host's reads returned, oldest first: part of a run's result
  (70_reset_and_hazards.md R246; log 4) -/
  reads : List Word
  deriving DecidableEq, Repr

/-- Why a step ends in a fault. -/
inductive Fault where
  /-- Raised by the engine's completion when BUSY is 1 and no word is in flight, which 10_state.md R30
  says cannot be ("present iff BUSY"). Safe: no state reached from reset has it (log 9). -/
  | busyWithoutCommand
  deriving DecidableEq, Repr

/-- Why a step is refused. -/
inductive Refusal where
  /-- Raised by `exec`'s arm of an instruction that has no meaning yet; no arm does. Safe. -/
  | notModelled (mnemonic : String)
  /-- Raised by the port for an access that is not 32 bits wide (20_memory.md R56: "a model must
  refuse them"). Safe (log 7). -/
  | notAWordAccess (width : OtherWidth) (off : Nat)
  /-- Raised by the port for a 32-bit access whose offset is no multiple of 4 (R56). Safe (log 7). -/
  | misalignedAccess (off : Nat)
  /-- Raised by the port for an aligned 32-bit access at or above offset 0x1000 (R56). Safe (log 7). -/
  | outsideWindow (off : Nat)
  /-- Raised by the engine's completion when BUSY is 0 (10_state.md R32: "Enabled iff STATUS.BUSY = 1";
  95_test_vectors.md H16). Safe (log 8). -/
  | completionNotEnabled
  deriving DecidableEq, Repr

/-- The block after reset in a build of `words` 32-bit words a register, nothing scheduled and
nothing read (10_state.md R39). -/
def State.resetFor (words : Nat) : State :=
  { words := words
    x := Vector.replicate 16 0
    busy := false
    done := false
    err := false
    ovr := false
    ecode := .none
    ie := false
    inflight := none
    schedule := []
    reads := [] }

/-- The reference configuration, W = 64, right after reset (10_state.md R39, 00_scope.md R6; log 1). -/
def State.reset : State := State.resetFor Config.referenceWords

end Sys2Proof.Machine
end

