-- ==== Sys2Proof/Machine/Flags.lean ====
section
/-! DEFINITION. The status bits as words of the port and the interrupt line. The block has no
arithmetic flag (10_state.md R23). -/

namespace Sys2Proof.Machine

/-- The 4-bit code of an ECODE value (60_exceptions.md R202). -/
def ECode.code : ECode → Nat
  | .none => 0
  | .illegalCmd => 1
  | .modZero => 2
  | .msgTooLarge => 3
  | .invUndefined => 4
  | .modEven => 5

/-- The STATUS word, `BUSY + 2·DONE + 4·ERR + 8·OVR + 16·ECODE` (20_memory.md R52). -/
def statusWord (s : State) : Word :=
  BitVec.ofNat 32
    (s.busy.toNat + 2 * s.done.toNat + 4 * s.err.toNat + 8 * s.ovr.toNat + 16 * s.ecode.code)

/-- The CTRL word, IE in bit 0 and zeros above (20_memory.md R52). -/
def ctrlWord (s : State) : Word := BitVec.ofNat 32 s.ie.toNat

/-- The PARAM word: WORDS in bits 7:0, the number of registers in bits 15:8, zeros above
(10_state.md R29). -/
def paramWord (s : State) : Word :=
  BitVec.ofNat 32 (s.words % 2 ^ 8 + 2 ^ 8 * (Config.nreg % 2 ^ 8))

/-- The interrupt line, `CTRL.IE AND STATUS.DONE`: a level, no stored bit (60_exceptions.md R207). -/
def irq (s : State) : Bool := s.ie && s.done

end Sys2Proof.Machine
end

