-- ==== Sys2Proof/Machine/Operands.lean ====
section
/-! DEFINITION. The operand registers: reading one, writing one, and the 32-bit words of one as the
host port sees them. The one operand form of the three formats is a register (30_encoding.md R82,
R83): a meaning reads `s.reg` of each source in the state it is given and writes last (00_scope.md
R11). -/

namespace Sys2Proof.Machine

/-- The operand width W in bits (00_scope.md R6, R7). -/
def State.width (s : State) : Nat := 32 * s.words

/-- `x[r]` (00_scope.md R11). -/
def State.reg (s : State) (r : Reg) : Nat := s.x[r.val]

/-- `x[r] <- v` (00_scope.md R11). -/
def State.setReg (s : State) (r : Reg) (v : Nat) : State := { s with x := s.x.set r.val v }

/-- Word `k` of a register's value, bits 32k+31 : 32k (20_memory.md R54). -/
def regWord (v k : Nat) : Word := BitVec.ofNat 32 (v / 2 ^ (32 * k))

/-- A register's value with word `k` replaced and its other bits unchanged (20_memory.md R53). -/
def setRegWord (v k : Nat) (w : Word) : Nat :=
  v / 2 ^ (32 * (k + 1)) * 2 ^ (32 * (k + 1)) + w.toNat * 2 ^ (32 * k) + v % 2 ^ (32 * k)

/-- The value of a list of words, least significant first: `Σ word_k · 2^(32k)` (20_memory.md R54). -/
def wordsValue : List Word → Nat
  | [] => 0
  | w :: ws => w.toNat + 2 ^ 32 * wordsValue ws

end Sys2Proof.Machine
end

