-- ==== Sys2Proof/Machine/Ops.lean ====
section
/-! DEFINITION. The named state transitions: acceptance, normal completion, error completion (the
block's one "exception entry", 60_exceptions.md R200, R201), acknowledgement (its "return",
R208), the host's writes to the control registers, the overrun and reset. -/

namespace Sys2Proof.Machine

/-- Acceptance of a command word by an idle block (10_state.md R35). -/
def accept (s : State) (w : Word) : State :=
  { s with inflight := some w, busy := true, done := false, err := false, ecode := .none }

/-- Normal completion, `done(rd, v)` (10_state.md R33). -/
def normalCompletion (s : State) (rd : Reg) (v : Nat) : State :=
  { s.setReg rd v with
      busy := false, done := true, err := false, ecode := .none, inflight := none }

/-- Error completion, `raise Error(c)` (60_exceptions.md R201): no operand register is written and
nothing is saved. -/
def errorCompletion (s : State) (c : ECode) : State :=
  { s with busy := false, done := true, err := true, ecode := c, inflight := none }

/-- A command's normal end as a step's outcome. -/
def finish (s : State) (rd : Reg) (v : Nat) : Host.Outcome State Fault Refusal :=
  .next (normalCompletion s rd v)

/-- A command's failing end as a step's outcome: an error completes the command, it stops nothing
(60_exceptions.md R200). -/
def raiseError (s : State) (c : ECode) : Host.Outcome State Fault Refusal :=
  .next (errorCompletion s c)

/-- The DONE group of a STATUS write: DONE, ERR and ECODE cleared together when bit 1 is written
and the block is idle (10_state.md R36). -/
def clearDone (s : State) : State :=
  if s.busy then s else { s with done := false, err := false, ecode := .none }

/-- Host write to STATUS: bit 1 acknowledges the completion, bit 3 clears OVR, all other bits are
ignored (10_state.md R36, 60_exceptions.md R208). -/
def writeStatus (s : State) (v : Word) : State :=
  let acked := if v.getLsbD 1 then clearDone s else s
  if v.getLsbD 3 then { acked with ovr := false } else acked

/-- Host write to CTRL: only IE is stored (10_state.md R28). -/
def writeCtrl (s : State) (v : Word) : State := { s with ie := v.getLsbD 0 }

/-- A write discarded because the block is busy (10_state.md R34). -/
def overrun (s : State) : State := { s with ovr := true }

/-- Host write to CMD (10_state.md R25). -/
def writeCmd (s : State) (w : Word) : State := if s.busy then overrun s else accept s w

/-- Host write to word `k` of `x[r]` (20_memory.md R53, 10_state.md R34). -/
def writeOperand (s : State) (r : Reg) (k : Nat) (w : Word) : State :=
  if s.busy then overrun s else s.setReg r (setRegWord (s.reg r) k w)

/-- Reset (70_reset_and_hazards.md R230, R232): all of 10_state.md R39 whatever was in flight. The
build's width is no state, and what the host still means to do and has read is not the block's. -/
def applyReset (s : State) : State :=
  { State.resetFor s.words with schedule := s.schedule, reads := s.reads }

end Sys2Proof.Machine
end

