-- ==== Sys2Proof/Machine/ModExp.lean ====
section
/-! DEFINITION. The exponentiation family: MODEXP and MODEXPC (41_modexp.md). -/

namespace Sys2Proof.Machine

/-- MODEXP xd, xa, xb, xn, no domain check on the base (41_modexp.md R120). -/
def execModexp (rd ra rb rn : Reg) (s : State) : Host.Outcome State Fault Refusal :=
  if s.reg rn = 0 then raiseError s .modZero
  else finish s rd (powMod (s.reg ra) (s.reg rb) (s.reg rn))

/-- MODEXPC xd, xa, xb, xn; the domain check comes first and covers modulus 0 (41_modexp.md R123,
60_exceptions.md R205). -/
def execModexpc (rd ra rb rn : Reg) (s : State) : Host.Outcome State Fault Refusal :=
  if s.reg ra ≥ s.reg rn then raiseError s .msgTooLarge
  else finish s rd (powMod (s.reg ra) (s.reg rb) (s.reg rn))

end Sys2Proof.Machine
end

