-- ==== Sys2Proof/Machine/ModInv.lean ====
section
/-! DEFINITION. The modular inverse unit: MODINV (42_modinv.md). -/

namespace Sys2Proof.Machine

/-- MODINV xd, xa, xn (42_modinv.md R140, R144). -/
def execModinv (rd ra rn : Reg) (s : State) : Host.Outcome State Fault Refusal :=
  match modInv? (s.reg ra) (s.reg rn) with
  | some d => finish s rd d
  | none => raiseError s .invUndefined

end Sys2Proof.Machine
end

