-- ==== Sys2Proof/Machine/ModMul.lean ====
section
/-! DEFINITION. The multiplier family: MULMOD and MONTMUL (40_modmul.md). -/

namespace Sys2Proof.Machine

/-- MULMOD xd, xa, xb, xn (40_modmul.md R100). -/
def execMulmod (rd ra rb rn : Reg) (s : State) : Host.Outcome State Fault Refusal :=
  if s.reg rn = 0 then raiseError s .modZero
  else finish s rd (mulMod (s.reg ra) (s.reg rb) (s.reg rn))

/-- MONTMUL xd, xa, xb, xn (40_modmul.md R103); a zero modulus is reported before an even one
(60_exceptions.md R205). -/
def execMontmul (rd ra rb rn : Reg) (s : State) : Host.Outcome State Fault Refusal :=
  if s.reg rn = 0 then raiseError s .modZero
  else if s.reg rn % 2 = 0 then raiseError s .modEven
  else finish s rd (montMul s.width (s.reg ra) (s.reg rb) (s.reg rn))

end Sys2Proof.Machine
end

