-- ==== Sys2Proof/Machine/PrimeTest.lean ====
section
/-! DEFINITION. The prime candidate tester: PRIMETEST (43_primetest.md). -/

namespace Sys2Proof.Machine

/-- PRIMETEST xd, xa: the verdict is the value 0 or 1 of `x[rd]`, and there is no error
(43_primetest.md R160). -/
def execPrimetest (rd ra : Reg) (s : State) : Host.Outcome State Fault Refusal :=
  finish s rd (isPrime (s.reg ra)).toNat

end Sys2Proof.Machine
end

