-- ==== Sys2Proof/Machine/Dispatch.lean ====
section
/-! DEFINITION. The result of a decoded command (10_state.md R32): one meaning per constructor. -/

namespace Sys2Proof.Machine

def exec (i : Instr) (s : State) : Host.Outcome State Fault Refusal :=
  match i with
  | .mulmod rd ra rb rn => Sys2Proof.Machine.execMulmod rd ra rb rn s
  | .montmul rd ra rb rn => Sys2Proof.Machine.execMontmul rd ra rb rn s
  | .modexp rd ra rb rn => Sys2Proof.Machine.execModexp rd ra rb rn s
  | .modexpc rd ra rb rn => Sys2Proof.Machine.execModexpc rd ra rb rn s
  | .modinv rd ra rn => Sys2Proof.Machine.execModinv rd ra rn s
  | .primetest rd ra => Sys2Proof.Machine.execPrimetest rd ra s

end Sys2Proof.Machine
end

