-- ==== Sys2Proof/Machine/Port.lean ====
section
/-! DEFINITION. The host port (20_memory.md): the address map, the two transactions, and the refusal
of every access that is no transaction. -/

namespace Sys2Proof.Machine

/-- What an offset of the window names (20_memory.md R51). -/
inductive Target where
  | cmd
  | status
  | ctrl
  | param
  /-- word `k` of `x[r]` (R54) -/
  | operand (r : Reg) (k : Nat)
  /-- read as zero, write ignored (R57) -/
  | reserved
  deriving DecidableEq, Repr

/-- The address map of 20_memory.md R51 and R54 for a build of `words` words a register: `x[i]`
takes the `4 · words` bytes from `0x100 + i · 4 · words`. -/
def targetOf (words off : Nat) : Target :=
  if off = Config.cmdOff then .cmd
  else if off = Config.statusOff then .status
  else if off = Config.ctrlOff then .ctrl
  else if off = Config.paramOff then .param
  else if Config.operandOff ≤ off ∧ off < Config.operandOff + Config.nreg * (4 * words) then
    .operand (Fin.ofNat 16 ((off - Config.operandOff) / (4 * words)))
      ((off - Config.operandOff) % (4 * words) / 4)
  else .reserved

/-- Offset of word `k` of `x[r]`, `0x100 + r·(W/8) + 4·k` (20_memory.md R52). -/
def operandOffset (words : Nat) (r : Reg) (k : Nat) : Nat :=
  Config.operandOff + r.val * (4 * words) + 4 * k

/-- The value HostRead returns (20_memory.md R52). -/
def readValue (s : State) (off : Nat) : Word :=
  match targetOf s.words off with
  | .cmd => 0
  | .status => statusWord s
  | .ctrl => ctrlWord s
  | .param => paramWord s
  | .operand r k => regWord (s.reg r) k
  | .reserved => 0

/-- The effect of HostWrite (20_memory.md R53). -/
def hostWrite (s : State) (off : Nat) (v : Word) : State :=
  match targetOf s.words off with
  | .cmd => writeCmd s v
  | .status => writeStatus s v
  | .ctrl => writeCtrl s v
  | .param => s
  | .operand r k => writeOperand s r k v
  | .reserved => s

/-- The effect of HostRead: none on the block (20_memory.md R52); the host keeps the value. -/
def hostRead (s : State) (off : Nat) : State := { s with reads := s.reads ++ [readValue s off] }

/-- Why a 32-bit access at an offset is no transaction, if it is none (20_memory.md R56). -/
def offsetRefusal (off : Nat) : Option Refusal :=
  if off % 4 ≠ 0 then some (.misalignedAccess off)
  else if off ≥ Config.windowBytes then some (.outsideWindow off)
  else none

/-- One access of the host: performed whole (20_memory.md R63), or refused (R56). -/
def transact (op : HostOp) (s : State) : Host.Outcome State Fault Refusal :=
  match op with
  | .read off =>
    match offsetRefusal off with
    | some r => .refused r
    | none => .next (hostRead s off)
  | .write off v =>
    match offsetRefusal off with
    | some r => .refused r
    | none => .next (hostWrite s off v)
  | .otherWidth width off => .refused (.notAWordAccess width off)

end Sys2Proof.Machine
end

