-- ==== Sys2Proof/Machine/Engine.lean ====
section
/-! DEFINITION. The engine's completion step and the choice of the agent that moves. `Step.lean` only
calls what stands here. -/

namespace Sys2Proof.Machine

/-- Completion (10_state.md R32): the word in flight is decoded now, not when it was written; an
illegal word ends with Error(1) before any register is read (30_encoding.md R87, 60_exceptions.md
R205). -/
def complete (s : State) : Host.Outcome State Fault Refusal :=
  if s.busy then
    match s.inflight with
    | some w =>
      match decode w with
      | .ok i => exec i s
      | .error _ => raiseError s .illegalCmd
    | none => .fault .busyWithoutCommand
  else .refused .completionNotEnabled

/-- One event (20_memory.md R61). -/
def perform (e : Event) (s : State) : Host.Outcome State Fault Refusal :=
  match e with
  | .host op => transact op s
  | .complete => complete s
  | .reset => .next (applyReset s)

/-- The next step: the event at the head of the schedule. With nothing scheduled, a busy block still
owes its completion (70_reset_and_hazards.md R243, R246) and an idle one changes nothing
(10_state.md R32). -/
def advance (s : State) : Host.Outcome State Fault Refusal :=
  match s.schedule with
  | e :: rest => perform e { s with schedule := rest }
  | [] => if s.busy then complete s else .next s

/-- A word put where the engine takes its next command, as acceptance leaves it (10_state.md R35), and
the engine's completion put first in the schedule. -/
def placeCommand (s : State) (w : Word) : State :=
  { accept s w with schedule := .complete :: s.schedule }

end Sys2Proof.Machine
end

