-- ==== Sys2Proof/Machine/Step.lean ====
section
/-! DEFINITION. One step of the block among its agents, and the placing of a command for the very
next step. -/

namespace Sys2Proof.Machine

/-- One step (20_memory.md R61, 10_state.md R32). -/
def step (s : State) : Host.Outcome State Fault Refusal := advance s

/-- `s` with the opcode table's word as the command the next step completes (log 6). -/
def State.withFetchWord (s : State) (nbits w : Nat) : State := placeCommand s (tableWord nbits w)

end Sys2Proof.Machine
end

