-- ==== Sys2Proof/Machine/HostProc.lean ====
section
/-! DEFINITION. The host's side of the contract (00_scope.md R4, 45_host_procedures.md): the
pseudo-operations of 30_encoding.md R90 and the document's procedures as sequences of host
transactions. None of it is part of the block: `step` uses nothing of this file. Random draws and
command latencies are arguments (R181, 93_implementation_defined.md U3, V3; log 18). -/

namespace Sys2Proof.Machine

/-- A host procedure: it runs from a state of the block and answers a value and the state it leaves,
or stops where the block stopped. -/
abbrev Proc (α : Type) := State → Host.Outcome (α × State) Fault Refusal

/-- The procedure that answers a value and does nothing. -/
def answer {α : Type} (a : α) : Proc α := fun s => .next (a, s)

/-- One procedure, then another that sees its answer. -/
def andThen {α β : Type} (p : Proc α) (f : α → Proc β) : Proc β := fun s =>
  match p s with
  | .next (a, s') => f a s'
  | .fault r => .fault r
  | .refused r => .refused r

/-- A transition of the block as a procedure without an answer. -/
def onBlock (f : State → Host.Outcome State Fault Refusal) : Proc Unit := fun s =>
  match f s with
  | .next s' => .next ((), s')
  | .fault r => .fault r
  | .refused r => .refused r

/-- HostWrite(off, v). -/
def writeWord (off : Nat) (v : Word) : Proc Unit := onBlock (transact (.write off v))

/-- HostRead(off), answering the word returned. -/
def readWord (off : Nat) : Proc Word := fun s =>
  andThen (onBlock (transact (.read off))) (fun _ => answer (readValue s off)) s

/-- The first `k` word writes of `LI xr, v`. -/
def loadWords (r : Reg) (v : Nat) : Nat → Proc Unit
  | 0 => answer ()
  | k + 1 => andThen (loadWords r v k) fun _ s =>
      writeWord (operandOffset s.words r k) (regWord v k) s

/-- `LI xr, v`: every word of the register, zero upper words too (30_encoding.md R90,
70_reset_and_hazards.md R237). R90 gives it for `v < 2^W` only. DESIGN CHOICE (log 23): for a larger
`v` it writes the low W bits; no procedure below calls it with one. -/
def li (r : Reg) (v : Nat) : Proc Unit := fun s => loadWords r v s.words s

/-- The first `k` word reads of `RD xr`, least significant word first. -/
def collectWords (r : Reg) : Nat → Proc (List Word)
  | 0 => answer []
  | k + 1 => andThen (collectWords r k) fun ws s =>
      andThen (readWord (operandOffset s.words r k)) (fun w => answer (ws ++ [w])) s

/-- `RD xr` (30_encoding.md R90). -/
def rdReg (r : Reg) : Proc Nat := fun s =>
  andThen (collectWords r s.words) (fun ws => answer (wordsValue ws)) s

/-- `ACK`: clears DONE, ERR, ECODE and OVR (30_encoding.md R90). -/
def ack : Proc Unit := writeWord Config.statusOff 0x0000000A

/-- `IRQON` (30_encoding.md R90). -/
def irqOn : Proc Unit := writeWord Config.ctrlOff 1

/-- `IRQOFF` (30_encoding.md R90). -/
def irqOff : Proc Unit := writeWord Config.ctrlOff 0

/-- The engine's completion, if one is owed. -/
def settleEngine : Proc Unit := onBlock fun s => if s.busy then complete s else .next s

/-- `WAIT`: read STATUS until bit 0 is 0 and answer that word (30_encoding.md R90). The completion
comes after `polls` reads at the latest. -/
def wait : Nat → Proc Word
  | 0 => andThen settleEngine fun _ => readWord Config.statusOff
  | polls + 1 => andThen (readWord Config.statusOff) fun st =>
      if st.getLsbD 0 then wait polls else answer st

/-- `CMD mnemonic ...` then `WAIT` (30_encoding.md R89). `latency` is how many reads see BUSY; it may
depend on anything (70_reset_and_hazards.md R243, R244). -/
def runCommand (latency : State → Nat) (i : Instr) : Proc Word :=
  andThen (writeWord Config.cmdOff (encode i)) fun _ s => wait (latency s) s

/-- STATUS.ERR of a status word (10_state.md R26). -/
def statusErr (st : Word) : Bool := st.getLsbD 2

/-- STATUS.ECODE of a status word (10_state.md R26). -/
def statusECode (st : Word) : Nat := bitField st 4 4

/-- The failures a host procedure hands its caller (45_host_procedures.md R185, R189; 60_exceptions.md
R202). -/
inductive HostError where
  /-- the document's MessageTooLargeError (ECODE 3, or a message the block cannot hold) -/
  | messageTooLarge
  /-- the document's ModularInverseUndefinedError (ECODE 4) -/
  | modularInverseUndefined
  /-- the document's KeyGenerationError, raised by the host alone -/
  | keyGeneration
  /-- any other error code of the block -/
  | blockError (ecode : Nat)
  /-- an argument the procedure's precondition excludes: a value the block cannot hold (00_scope.md R8)
  or a bit length outside R180's or R182's range. The model's own (log 23) -/
  | outsideDomain
  /-- the finite list of draws ended before the unbounded loop did (93_implementation_defined.md U3) -/
  | drawsExhausted
  deriving DecidableEq, Repr

/-- An error code as the document's error kind (60_exceptions.md R202). -/
def hostErrorOf (ecode : Nat) : HostError :=
  if ecode = 3 then .messageTooLarge
  else if ecode = 4 then .modularInverseUndefined
  else .blockError ecode

/-- A procedure that runs if its precondition holds, and otherwise answers so without touching the
block. DESIGN CHOICE (log 23). -/
def requiring {α : Type} (ok : State → Bool) (p : Proc (Except HostError α)) :
    Proc (Except HostError α) := fun s =>
  if ok s then p s else answer (.error .outsideDomain) s

/-- Whether every value fits a register, which is what `LI` asks (30_encoding.md R90, 00_scope.md R8). -/
def loadable (values : List Nat) (s : State) : Bool := values.all fun v => decide (v < 2 ^ s.width)

/-- What the host may draw for `generatePrime(bits)`: an odd integer in `[2^(bits-1), 2^bits - 1]`
(45_host_procedures.md R180). -/
def validDraw (bits c : Nat) : Bool :=
  c % 2 == 1 && decide (2 ^ (bits - 1) ≤ c) && decide (c ≤ 2 ^ bits - 1)

/-- Tests the draws in turn with PRIMETEST x1, x0 and answers the first one that passes and is
`wanted`, with the draws left. A number R180 does not admit as a draw is none: it is passed over
and the block is not asked (DESIGN CHOICE, log 18). -/
def samplePrime (latency : State → Nat) (bits : Nat) (wanted : Nat → Bool) :
    List Nat → Proc (Except HostError (Nat × List Nat))
  | [] => answer (.error .drawsExhausted)
  | c :: rest =>
    if validDraw bits c then
      andThen (li 0 c) fun _ =>
      andThen (runCommand latency (.primetest 1 0)) fun _ =>
      andThen (rdReg 1) fun verdict =>
        if verdict = 1 ∧ wanted c then answer (.ok (c, rest))
        else samplePrime latency bits wanted rest
    else samplePrime latency bits wanted rest

/-- `generatePrime(bits)`, `2 ≤ bits ≤ W`: the first draw that passes; no other stop
(45_host_procedures.md R180). -/
def generatePrime (latency : State → Nat) (bits : Nat) (draws : List Nat) :
    Proc (Except HostError (Nat × List Nat)) :=
  requiring (fun s => decide (2 ≤ bits) && decide (bits ≤ s.width))
    (samplePrime latency bits (fun _ => true) draws)

/-- The scan of 45_host_procedures.md R183: odd `e` upward while `e < phi`, until MODINV ends without
error; answers `(e, d)`. The totient is in x2. -/
def scanExponent (latency : State → Nat) (phi : Nat) :
    Nat → Nat → Proc (Except HostError (Nat × Nat))
  | 0, _ => answer (.error .keyGeneration)
  | fuel + 1, e =>
    if e ≥ phi then answer (.error .keyGeneration)
    else
      andThen (li 1 e) fun _ =>
      andThen (runCommand latency (.modinv 3 1 2)) fun st =>
        if statusErr st then scanExponent latency phi fuel (e + 2)
        else andThen (rdReg 3) fun d => answer (.ok (e, d))

/-- Steps 3 and 4 of key generation (45_host_procedures.md R183, R184; 92_eei_decisions.md D35), for a
totient the block can hold. Every `e` it loads is below that totient. -/
def chooseExponent (latency : State → Nat) (phi : Nat) : Proc (Except HostError (Nat × Nat)) :=
  requiring (loadable [phi]) <| andThen (li 2 phi) fun _ =>
    if 65537 < phi then
      andThen (li 1 65537) fun _ =>
      andThen (runCommand latency (.modinv 3 1 2)) fun st =>
        if statusErr st then answer (.error .modularInverseUndefined)
        else andThen (rdReg 3) fun d => answer (.ok (65537, d))
    else scanExponent latency phi phi 3

/-- A key pair with its secret factors (00_scope.md R13, 45_host_procedures.md R184). -/
structure KeyPair where
  e : Nat
  d : Nat
  n : Nat
  p : Nat
  q : Nat
  deriving DecidableEq, Repr

/-- `generateKeys(bits)` for `2 · bits ≤ W` (45_host_procedures.md R182 to R185, 00_scope.md R8): `q` is
drawn again until it differs from `p`; `n` and `phi` are the host's own products. -/
def generateKeys (latency : State → Nat) (bits : Nat) (draws : List Nat) :
    Proc (Except HostError KeyPair) :=
  requiring (fun s => decide (2 ≤ bits) && decide (2 * bits ≤ s.width)) <|
  andThen (generatePrime latency bits draws) fun first =>
    match first with
    | .error e => answer (.error e)
    | .ok (p, rest) =>
      andThen (samplePrime latency bits (fun c => decide (c ≠ p)) rest) fun second =>
        match second with
        | .error e => answer (.error e)
        | .ok (q, _) =>
          andThen (chooseExponent latency ((p - 1) * (q - 1))) fun chosen =>
            match chosen with
            | .error e => answer (.error e)
            | .ok (e, d) => answer (.ok ⟨e, d, p * q, p, q⟩)

/-- A command on operands in x0, x1, x2, each one the block can hold, with its result in x3, or the
error it ended with. -/
def callOnOperands (latency : State → Nat) (i : Instr) (a b n : Nat) :
    Proc (Except HostError Nat) :=
  requiring (loadable [a, b, n]) <|
  andThen (li 0 a) fun _ =>
  andThen (li 1 b) fun _ =>
  andThen (li 2 n) fun _ =>
  andThen (runCommand latency i) fun st =>
    if statusErr st then answer (.error (hostErrorOf (statusECode st)))
    else andThen (rdReg 3) fun v => answer (.ok v)

/-- `encrypt(m, (e, n))`: one MODEXPC; a message of 2^W or more cannot be loaded and is too large
(45_host_procedures.md R186). An `e` or `n` of 2^W or more is outside the domain, whatever the
message (DESIGN CHOICE, log 23). -/
def encrypt (latency : State → Nat) (m e n : Nat) : Proc (Except HostError Nat) :=
  requiring (loadable [e, n]) fun s =>
    if m ≥ 2 ^ s.width then answer (.error .messageTooLarge) s
    else callOnOperands latency (.modexpc 3 0 1 2) m e n s

/-- `decrypt(c, (d, n))`: one MODEXP (45_host_procedures.md R187). A `c`, `d` or `n` of 2^W or more is
outside the domain (DESIGN CHOICE, log 23). -/
def decrypt (latency : State → Nat) (c d n : Nat) : Proc (Except HostError Nat) :=
  callOnOperands latency (.modexp 3 0 1 2) c d n

/-- `textToIntegers`: each character to its code point (45_host_procedures.md R188). -/
def textToIntegers (text : String) : List Nat := text.toList.map Char.toNat

/-- The character of a code point. R188 calls `integersToText` the exact inverse of `textToIntegers`
and so says nothing of a number no character has, which a decryption under a wrong key can give.
DESIGN CHOICE (log 24): that character is a free value. -/
def charOfCode (code : Nat) : Char :=
  if code.isValidChar then Char.ofNat code else Config.charOfNoCodePoint code

/-- `integersToText`, the inverse of `textToIntegers` (45_host_procedures.md R188); every other number
gives one character, which is left free (`charOfCode`, log 24). -/
def integersToText (codes : List Nat) : String := String.ofList (codes.map charOfCode)

/-- Encrypting a text: one `encrypt` per code point. One that is too large is skipped, any other
failure goes to the caller and nothing more is issued (45_host_procedures.md R188, R189).
DESIGN CHOICE (log 22): R188 lets the host compare the code point with `n` and issue no command, or
issue MODEXPC and drop the character on ECODE 3; here the command is issued for every code point
below 2^W, and only a larger one is dropped without it. -/
def encryptCodes (latency : State → Nat) (e n : Nat) :
    List Nat → Proc (Except HostError (List Nat))
  | [] => answer (.ok [])
  | m :: ms =>
    andThen (encrypt latency m e n) fun c =>
      match c with
      | .ok v =>
        andThen (encryptCodes latency e n ms) fun cs =>
          match cs with
          | .ok vs => answer (.ok (v :: vs))
          | .error err => answer (.error err)
      | .error .messageTooLarge => encryptCodes latency e n ms
      | .error err => answer (.error err)

/-- Decrypting a sequence of ciphertexts in turn; a failure goes to the caller
(45_host_procedures.md R189). -/
def decryptCodes (latency : State → Nat) (d n : Nat) : List Nat → Proc (Except HostError (List Nat))
  | [] => answer (.ok [])
  | c :: cs =>
    andThen (decrypt latency c d n) fun m =>
      match m with
      | .error e => answer (.error e)
      | .ok v =>
        andThen (decryptCodes latency d n cs) fun ms =>
          match ms with
          | .error e => answer (.error e)
          | .ok vs => answer (.ok (v :: vs))

end Sys2Proof.Machine
end

