-- ==== Sys2Proof/Safety.lean ====
section
/-! DEFINITION. What every reachable state satisfies, and the terms the statements are written in:
the two ends of a command as the spec writes them out, a state about to take an event, and a
command as a function of its operand values. -/

namespace Sys2Proof

open Machine

/-- The build's width is one 00_scope.md R6 admits. -/
abbrev WidthOk (s : State) : Prop := Config.minWords ≤ s.words ∧ s.words ≤ Config.maxWords

/-- Every operand register holds a value of W bits (10_state.md R20, 00_scope.md R8). -/
abbrev RegsFit (s : State) : Prop := ∀ r : Reg, s.reg r < 2 ^ s.width

/-- The invariants (a) to (c) of STATUS (10_state.md R27); (d) holds by ECODE's type. -/
abbrev StatusOk (s : State) : Prop :=
  (s.busy = true → s.done = false ∧ s.err = false ∧ s.ecode = .none) ∧
  (s.err = true ↔ s.ecode ≠ .none) ∧
  (s.err = true → s.done = true)

/-- The latch is present iff BUSY (10_state.md R30). -/
abbrev LatchOk (s : State) : Prop := s.inflight.isSome = s.busy

/-- The invariant of the block. -/
abbrev Inv (s : State) : Prop := WidthOk s ∧ RegsFit s ∧ StatusOk s ∧ LatchOk s

/-- The end of a run: nothing left to happen and no completion owed (70_reset_and_hazards.md R246). -/
abbrev RunOver (s : State) : Prop := s.schedule = [] ∧ s.busy = false

/-- `s` with one more event before all that is scheduled: every state whose schedule is not empty
is `before e s` for its first event `e`. -/
def before (e : Event) (s : State) : State := { s with schedule := e :: s.schedule }

/-- `s` with one more host write to come first. -/
abbrev beforeWrite (off : Nat) (v : Word) (s : State) : State := before (.host (.write off v)) s

/-- `s` with one more host read to come first. -/
abbrev beforeRead (off : Nat) (s : State) : State := before (.host (.read off)) s

/-- What 10_state.md R33 says `done(rd, v)` leaves, every other field as it was. -/
def afterNormal (s : State) (rd : Reg) (v : Nat) : State :=
  { s with x := s.x.set rd.val v, busy := false, done := true, err := false, ecode := .none,
           inflight := none }

/-- What 60_exceptions.md R201 says `raise Error(c)` leaves, every other field as it was. -/
def afterError (s : State) (c : ECode) : State :=
  { s with busy := false, done := true, err := true, ecode := c, inflight := none }

/-- What 10_state.md R35 says acceptance of `w` leaves, every other field as it was. -/
def afterAccept (s : State) (w : Word) : State :=
  { s with inflight := some w, busy := true, done := false, err := false, ecode := .none }

/-- The codes of 60_exceptions.md R202. -/
def codeOf : ECode → Nat
  | .none => 0
  | .illegalCmd => 1
  | .modZero => 2
  | .msgTooLarge => 3
  | .invUndefined => 4
  | .modEven => 5

/-- What `generatePrime(bits)` may draw: an odd integer in `[2^(bits-1), 2^bits - 1]`
(45_host_procedures.md R180). -/
abbrev DrawOk (bits c : Nat) : Prop := c % 2 = 1 ∧ 2 ^ (bits - 1) ≤ c ∧ c ≤ 2 ^ bits - 1

/-- A block of `words` words a register with `a`, `b`, `n` in x0, x1, x2 and zeros elsewhere. -/
def holding (words a b n : Nat) : State :=
  { State.resetFor words with x := (((Vector.replicate 16 0).set 0 a).set 1 b).set 2 n }

/-- What a command on given operand values comes to: the value it leaves in its destination, or the
code of its error. -/
def valueOf (i : Instr) (words a b n : Nat) : Except ECode Nat :=
  match exec i (holding words a b n) with
  | .next t => if t.err then .error t.ecode else .ok (t.reg i.dest)
  | _ => .error .none

/-- `MULMOD(a, b, n)` of 40_modmul.md R101. -/
def mulmodOf (words a b n : Nat) : Except ECode Nat := valueOf (.mulmod 3 0 1 2) words a b n

/-- `MONTMUL(a, b, n)` of 40_modmul.md R105. -/
def montmulOf (words a b n : Nat) : Except ECode Nat := valueOf (.montmul 3 0 1 2) words a b n

/-- `MODEXP(c, d, n)` of 41_modexp.md R122. -/
def modexpOf (words c d n : Nat) : Except ECode Nat := valueOf (.modexp 3 0 1 2) words c d n

/-- `MODEXPC(m, e, n)` of 41_modexp.md R123. -/
def modexpcOf (words m e n : Nat) : Except ECode Nat := valueOf (.modexpc 3 0 1 2) words m e n

/-- `MODINV(e, phi)` of 42_modinv.md R144. -/
def modinvOf (words e phi : Nat) : Except ECode Nat := valueOf (.modinv 3 0 2) words e 0 phi

/-- `PRIMETEST(n)` of 43_primetest.md R164. -/
def primetestOf (words n : Nat) : Except ECode Nat := valueOf (.primetest 3 0) words n 0 0

end Sys2Proof
end

