-- ==== Sys2Proof/Certificates/Slice0/Obligations.lean ====
section
/-! DEFINITION. The statements for the provers. The operand width is a field of the state, so each
holds for every build; statements about every state hold in states no run reaches as well, unless
the invariant `Inv` is a premise. -/

open Sys2Proof Sys2Proof.Machine

/-! ### Reset and the invariant -/

/-- 10_state.md R39, for every build: every piece of state after reset, PARAM being its constant and
`irq` the function of R207. -/
def Obligations.ResetLeavesSpecValues : Prop :=
  ∀ words, Config.minWords ≤ words → words ≤ Config.maxWords →
    let s := State.resetFor words
    (∀ r : Reg, s.reg r = 0) ∧ s.busy = false ∧ s.done = false ∧ s.err = false ∧ s.ovr = false ∧
      s.ecode = .none ∧ s.ie = false ∧ s.inflight = none ∧ irq s = false ∧
      (readValue s 0x00C).toNat = words + 16 * 2 ^ 8

/-- 70_reset_and_hazards.md R230: reset at any point maps any state to the reset state, and the block
is then idle and accepts a command at once. -/
def Obligations.ResetFromAnyState : Prop :=
  ∀ s : State, ∃ t, step (before .reset s) = .next t ∧
    (∀ r : Reg, t.reg r = 0) ∧ readValue t 0x004 = 0 ∧ readValue t 0x008 = 0 ∧
    t.inflight = none ∧ irq t = false ∧ t.words = s.words ∧
    ∀ w, step (beforeWrite 0x000 w t) = .next (afterAccept t w)

/-- 70_reset_and_hazards.md R232: a reset during a command discards it; afterwards no completion of it
is enabled, no register and no status bit of it remains. The queue of what the host still means to
do is kept: that clause is the model's choice (log 3, log 16). -/
def Obligations.ResetDiscardsTheCommand : Prop :=
  ∀ (s : State) (w : Word), s.busy = true → s.inflight = some w →
    ∃ t, step (before .reset s) = .next t ∧ t.busy = false ∧ t.done = false ∧ t.err = false ∧
      t.ecode = .none ∧ irq t = false ∧ (∀ r : Reg, t.reg r = 0) ∧ t.schedule = s.schedule ∧
      step (before .complete t) = .refused .completionNotEnabled

/-- The invariant holds after reset in every build, the reference one among them (log 1). -/
def Obligations.ResetMeetsInvariant : Prop :=
  (∀ words, Config.minWords ≤ words → words ≤ Config.maxWords → Inv (State.resetFor words)) ∧
    Inv State.reset

/-- Every step keeps the invariant: an admitted width, registers of W bits, the STATUS invariants of
10_state.md R27, the latch present iff BUSY (R30). -/
def Obligations.StepKeepsInvariant : Prop :=
  ∀ s t : State, Inv s → step s = .next t → Inv t

/-! ### Encoding -/

/-- Decoding the word of any command gives the command back. -/
def Obligations.DecodeOfEncode : Prop := ∀ i : Instr, decode (encode i) = .ok i

/-- Every legal word is the encoding of what it decodes to: no bit of a word is ignored. -/
def Obligations.EncodeOfDecode : Prop := ∀ (w : Word) (i : Instr), decode w = .ok i → encode i = w

/-- 30_encoding.md R85: a word is command M iff `w AND mask(M) = match(M)`, and no word matches two
rows. -/
def Obligations.DecodeAgreesWithMaskTable : Prop :=
  (∀ row ∈ opcodeTable, ∀ w : Word,
    (∃ i, decode w = .ok i ∧ i.mnemonic = row.mnemonic) ↔ w &&& row.mask = row.pattern) ∧
  (∀ row ∈ opcodeTable, ∀ row' ∈ opcodeTable, ∀ w : Word,
    w &&& row.mask = row.pattern → w &&& row'.mask = row'.pattern → row = row')

/-- The illegal words are exactly those 30_encoding.md R87 lists. -/
def Obligations.IllegalWordsExactly : Prop :=
  ∀ w : Word, isIllegal w = true ↔
    (bitField w 0 8 ≠ 0 ∨ bitField w 24 8 = 0x00 ∨ bitField w 24 8 ≥ 0x07 ∨
      (bitField w 24 8 = 0x05 ∧ bitField w 12 4 ≠ 0) ∨
      (bitField w 24 8 = 0x06 ∧ (bitField w 12 4 ≠ 0 ∨ bitField w 8 4 ≠ 0)))

/-- 30_encoding.md R87's count of the legal words. -/
def Obligations.LegalWordCount : Prop :=
  (Finset.univ.filter fun w : Word => isIllegal w = false).card = 266496

/-- Words written out from the encodings of 30_encoding.md R89 and 95_test_vectors.md X1 to X14. -/
def Obligations.SpecWordsDecode : Prop :=
  decode 0x01311200 = .ok (.mulmod 3 1 1 2) ∧
  decode 0x02311200 = .ok (.montmul 3 1 1 2) ∧
  decode 0x03301200 = .ok (.modexp 3 0 1 2) ∧
  decode 0x04301200 = .ok (.modexpc 3 0 1 2) ∧
  decode 0x05310200 = .ok (.modinv 3 1 2) ∧
  decode 0x06100000 = .ok (.primetest 1 0) ∧
  decode 0x01FFFF00 = .ok (.mulmod 15 15 15 15) ∧
  decode 0x05311200 = .error .modinvNonzeroRb ∧
  decode 0x06100100 = .error .primetestNonzeroRbRn

/-- The decoder on a table word laid out in bytes is the decoder on the word. -/
def Obligations.TableWordDecodesAsWord : Prop :=
  ∀ (nbits w : Nat) (i : Instr),
    decodeTableWord nbits w = some i ↔ nbits ≤ 32 ∧ decode (tableWord nbits w) = .ok i

/-! ### The step and the command in flight -/

/-- 10_state.md R32: the completion step of a busy block runs the command its word decodes to, now or
(nothing being scheduled) as the completion still owed. -/
def Obligations.StepRunsDecodedCommand : Prop :=
  ∀ (s : State) (w : Word) (i : Instr),
    s.busy = true → s.inflight = some w → decode w = .ok i →
      step (before .complete s) = exec i s ∧ (s.schedule = [] → step s = exec i s)

/-- A placed table word is the command the very next step runs (log 6). -/
def Obligations.PlacedWordRunsNext : Prop :=
  ∀ (s : State) (nbits w : Nat) (i : Instr), decodeTableWord nbits w = some i →
    step (s.withFetchWord nbits w) = exec i (afterAccept s (tableWord nbits w))

/-- 30_encoding.md R87, 60_exceptions.md R205 (1): an illegal word in flight completes with
ILLEGAL_CMD whatever the registers hold, and nothing but the four STATUS fields and the latch
changes. -/
def Obligations.IllegalWordCompletesWithError : Prop :=
  ∀ (s : State) (w : Word), s.busy = true → s.inflight = some w → isIllegal w = true →
    step (before .complete s) = .next (afterError s .illegalCmd)

/-- 10_state.md R32: a completion is enabled only when BUSY is 1 (95_test_vectors.md H16: refused), and
an idle block with nothing to come changes nothing. The refusal and the idle step are the model's
forms of that (log 5, log 8). -/
def Obligations.IdleBlockDoesNothing : Prop :=
  ∀ s : State, s.busy = false →
    step (before .complete s) = .refused .completionNotEnabled ∧
      (s.schedule = [] → step s = .next s)

/-- 70_reset_and_hazards.md R243: an accepted command, any word whatever, completes; no operand value
and no word makes the engine hang. -/
def Obligations.AcceptedCommandCompletes : Prop :=
  ∀ s : State, s.busy = true → LatchOk s →
    ∃ t, step (before .complete s) = .next t ∧ t.busy = false ∧ t.done = true ∧ t.inflight = none

/-- 70_reset_and_hazards.md R239, 20_memory.md R66: nothing the host does stops, changes or replaces a
command in flight, nor any of its operands. -/
def Obligations.HostCannotDisturbACommand : Prop :=
  ∀ (s t : State) (op : HostOp), s.busy = true → step (before (.host op) s) = .next t →
    t.busy = true ∧ t.inflight = s.inflight ∧ t.x = s.x

/-! ### Completions -/

/-- 10_state.md R33: a completion without error is `done(rd, v)` of the decoded command's own `rd`
with a value of W bits, and changes nothing else. -/
def Obligations.NormalCompletionWritesOneRegister : Prop :=
  ∀ s t : State, Inv s → step (before .complete s) = .next t → t.err = false →
    ∃ w i v, s.inflight = some w ∧ decode w = .ok i ∧ v < 2 ^ s.width ∧ t = afterNormal s i.dest v

/-- 60_exceptions.md R201: a completion with error writes the four STATUS fields and the latch, and no
register. -/
def Obligations.ErrorCompletionWritesStatusOnly : Prop :=
  ∀ s t : State, step (before .complete s) = .next t → t.err = true →
    t = afterError s t.ecode ∧ t.ecode ≠ .none

/-- Every command on every operand value answers a next state with the block idle and DONE set
(00_scope.md R14 item 5, 60_exceptions.md R200). -/
def Obligations.ExecAlwaysAnswers : Prop :=
  ∀ (i : Instr) (s : State), ∃ t, exec i s = .next t ∧
    t.busy = false ∧ t.done = true ∧ t.inflight = none ∧ (t.err = true ↔ t.ecode ≠ .none)

/-- 10_state.md R21: the frame of all six commands. Only `rd` may change among the registers, and at
the port every word but STATUS and the words of `rd` reads as before; OVR and CTRL keep their values
(R33). -/
def Obligations.CommandFrame : Prop :=
  ∀ (i : Instr) (s t : State), exec i s = .next t →
    (∀ r : Reg, r ≠ i.dest → t.reg r = s.reg r) ∧
    t.words = s.words ∧ t.ovr = s.ovr ∧ t.ie = s.ie ∧ t.schedule = s.schedule ∧ t.reads = s.reads ∧
    (∀ off, off ≠ Config.statusOff →
      ¬ (operandOffset s.words i.dest 0 ≤ off ∧ off < operandOffset s.words i.dest s.words) →
      readValue t off = readValue s off)

/-- 10_state.md R31: a command's outcome is a function of the width and the registers its format
names, whatever the rest of the state is. -/
def Obligations.ResultDependsOnSourcesOnly : Prop :=
  ∀ (i : Instr) (s s' t t' : State), s.words = s'.words →
    (∀ r ∈ i.sources, s.reg r = s'.reg r) → exec i s = .next t → exec i s' = .next t' →
    t.ecode = t'.ecode ∧ t.err = t'.err ∧ (t.err = false → t.reg i.dest = t'.reg i.dest)

/-- 60_exceptions.md R203: which command ends with which code, and when. -/
def Obligations.ErrorCodeOfEachCommand : Prop :=
  (∀ (s t : State) (w : Word), s.busy = true → s.inflight = some w →
    step (before .complete s) = .next t → (codeOf t.ecode = 1 ↔ isIllegal w = true)) ∧
  (∀ (s : State) (rd ra rb rn : Reg),
    (∃ t, exec (.mulmod rd ra rb rn) s = .next t ∧
      codeOf t.ecode = if s.reg rn = 0 then 2 else 0) ∧
    (∃ t, exec (.montmul rd ra rb rn) s = .next t ∧
      codeOf t.ecode = if s.reg rn = 0 then 2 else if s.reg rn % 2 = 0 then 5 else 0) ∧
    (∃ t, exec (.modexp rd ra rb rn) s = .next t ∧
      codeOf t.ecode = if s.reg rn = 0 then 2 else 0) ∧
    (∃ t, exec (.modexpc rd ra rb rn) s = .next t ∧
      codeOf t.ecode = if s.reg ra ≥ s.reg rn then 3 else 0) ∧
    (∃ t, exec (.modinv rd ra rn) s = .next t ∧
      codeOf t.ecode = if s.reg rn = 0 ∨ Nat.gcd (s.reg ra) (s.reg rn) ≠ 1 then 4 else 0) ∧
    (∃ t, exec (.primetest rd ra) s = .next t ∧ codeOf t.ecode = 0))

/-! ### MULMOD and MONTMUL -/

/-- 40_modmul.md R100, with its encoding and its worked example. -/
def Obligations.MulmodResult : Prop :=
  (∀ rd ra rb rn : Reg, decode (BitVec.ofNat 32 (0x01000000 + rd.val * 2 ^ 20 + ra.val * 2 ^ 16 +
    rb.val * 2 ^ 12 + rn.val * 2 ^ 8)) = .ok (.mulmod rd ra rb rn)) ∧
  (∀ (s : State) (rd ra rb rn : Reg),
    (s.reg rn = 0 → exec (.mulmod rd ra rb rn) s = .next (afterError s .modZero)) ∧
    (s.reg rn ≠ 0 → exec (.mulmod rd ra rb rn) s =
      .next (afterNormal s rd (s.reg ra * s.reg rb % s.reg rn)))) ∧
  (∀ s : State, s.reg 1 = 65 → s.reg 2 = 3233 →
    decode 0x01311200 = .ok (.mulmod 3 1 1 2) ∧
    exec (.mulmod 3 1 1 2) s = .next (afterNormal s 3 992))

/-- 40_modmul.md R101. -/
def Obligations.MulmodLaws : Prop :=
  ∀ words a b n : Nat, 1 ≤ n → ∃ v, mulmodOf words a b n = .ok v ∧ v < n ∧
    mulmodOf words b a n = .ok v ∧ mulmodOf words (a % n) (b % n) n = .ok v ∧
    mulmodOf words a 1 n = .ok (a % n)

/-- 40_modmul.md R103, with its encoding, its corner cases and its worked example: the result is the
unique `t` below the modulus with `t · 2^W ≡ a · b`, and it is `a · b · Rinv` reduced; it depends on
the build's width. -/
def Obligations.MontmulResult : Prop :=
  (∀ rd ra rb rn : Reg, decode (BitVec.ofNat 32 (0x02000000 + rd.val * 2 ^ 20 + ra.val * 2 ^ 16 +
    rb.val * 2 ^ 12 + rn.val * 2 ^ 8)) = .ok (.montmul rd ra rb rn)) ∧
  (∀ (s : State) (rd ra rb rn : Reg),
    (s.reg rn = 0 → exec (.montmul rd ra rb rn) s = .next (afterError s .modZero)) ∧
    (s.reg rn ≠ 0 → s.reg rn % 2 = 0 →
      exec (.montmul rd ra rb rn) s = .next (afterError s .modEven)) ∧
    (s.reg rn % 2 = 1 →
      (∃ rinv, rinv < s.reg rn ∧ 2 ^ s.width * rinv % s.reg rn = 1 % s.reg rn ∧
        exec (.montmul rd ra rb rn) s =
          .next (afterNormal s rd (s.reg ra * s.reg rb * rinv % s.reg rn))) ∧
      (∀ t, t < s.reg rn → t * 2 ^ s.width % s.reg rn = s.reg ra * s.reg rb % s.reg rn →
        exec (.montmul rd ra rb rn) s = .next (afterNormal s rd t)))) ∧
  (∀ words a b n : Nat, n % 2 = 1 →
    montmulOf words a b 1 = .ok 0 ∧ montmulOf words 0 b n = .ok 0 ∧
    montmulOf words a 0 n = .ok 0 ∧
    ∃ rinv, rinv < n ∧ 2 ^ (32 * words) * rinv % n = 1 % n ∧ montmulOf words 1 1 n = .ok rinv) ∧
  montmulOf 1 65 65 3233 ≠ montmulOf 2 65 65 3233 ∧
  (∀ s : State, s.words = 2 → s.reg 1 = 65 → s.reg 2 = 3233 →
    decode 0x02311200 = .ok (.montmul 3 1 1 2) ∧
    exec (.montmul 3 1 1 2) s = .next (afterNormal s 3 794))

/-- 40_modmul.md R105: into Montgomery form and out of it. -/
def Obligations.MontgomeryRelations : Prop :=
  ∀ words a b n : Nat, n % 2 = 1 →
    (∃ m v, montmulOf words a b n = .ok m ∧
      montmulOf words m ((2 ^ (32 * words)) ^ 2 % n) n = .ok v ∧ mulmodOf words a b n = .ok v) ∧
    (∃ v, mulmodOf words a b n = .ok v ∧
      montmulOf words (a * 2 ^ (32 * words) % n) (b * 2 ^ (32 * words) % n) n =
        .ok (v * 2 ^ (32 * words) % n)) ∧
    montmulOf words (a * 2 ^ (32 * words) % n) 1 n = .ok (a % n)

/-- 40_modmul.md R104 (informative there): for operands below an odd W-bit modulus the REDC listing
gives MONTMUL's value. -/
def Obligations.RedcComputesMontmul : Prop :=
  ∀ words a b n : Nat, n % 2 = 1 → n < 2 ^ (32 * words) → a < n → b < n →
    montmulOf words a b n = .ok (redc (32 * words) a b n)

/-! ### MODEXP and MODEXPC -/

/-- 41_modexp.md R120, with its encoding and its worked example. -/
def Obligations.ModexpResult : Prop :=
  (∀ rd ra rb rn : Reg, decode (BitVec.ofNat 32 (0x03000000 + rd.val * 2 ^ 20 + ra.val * 2 ^ 16 +
    rb.val * 2 ^ 12 + rn.val * 2 ^ 8)) = .ok (.modexp rd ra rb rn)) ∧
  (∀ (s : State) (rd ra rb rn : Reg),
    (s.reg rn = 0 → exec (.modexp rd ra rb rn) s = .next (afterError s .modZero)) ∧
    (s.reg rn ≠ 0 → exec (.modexp rd ra rb rn) s =
      .next (afterNormal s rd (s.reg ra ^ s.reg rb % s.reg rn)))) ∧
  (∀ s : State, s.reg 0 = 2790 → s.reg 1 = 2753 → s.reg 2 = 3233 →
    decode 0x03301200 = .ok (.modexp 3 0 1 2) ∧
    exec (.modexp 3 0 1 2) s = .next (afterNormal s 3 65))

/-- 41_modexp.md R122. -/
def Obligations.ModexpLaws : Prop :=
  ∀ words c d n : Nat, 1 ≤ n → ∃ v, modexpOf words c d n = .ok v ∧ v < n ∧
    modexpOf words (c % n) d n = .ok v ∧
    (∀ d1 d2, d1 + d2 < 2 ^ (32 * words) → ∃ v1 v2, modexpOf words c d1 n = .ok v1 ∧
      modexpOf words c d2 n = .ok v2 ∧
      modexpOf words c (d1 + d2) n = mulmodOf words v1 v2 n) ∧
    modexpOf words c 2 n = mulmodOf words c c n

/-- 41_modexp.md R125: a zero exponent gives `1 mod n` whatever the base, 0 included. -/
def Obligations.ExponentZeroGivesOne : Prop :=
  ∀ (s : State) (rd ra rb rn : Reg), s.reg rb = 0 →
    (s.reg rn = 1 → exec (.modexp rd ra rb rn) s = .next (afterNormal s rd 0) ∧
      (s.reg ra < 1 → exec (.modexpc rd ra rb rn) s = .next (afterNormal s rd 0))) ∧
    (s.reg rn ≥ 2 → exec (.modexp rd ra rb rn) s = .next (afterNormal s rd 1) ∧
      (s.reg ra < s.reg rn → exec (.modexpc rd ra rb rn) s = .next (afterNormal s rd 1)))

/-- 41_modexp.md R123, with its encoding and its worked examples. -/
def Obligations.ModexpcResult : Prop :=
  (∀ rd ra rb rn : Reg, decode (BitVec.ofNat 32 (0x04000000 + rd.val * 2 ^ 20 + ra.val * 2 ^ 16 +
    rb.val * 2 ^ 12 + rn.val * 2 ^ 8)) = .ok (.modexpc rd ra rb rn)) ∧
  (∀ (s : State) (rd ra rb rn : Reg),
    (s.reg ra ≥ s.reg rn → exec (.modexpc rd ra rb rn) s = .next (afterError s .msgTooLarge)) ∧
    (s.reg ra < s.reg rn →
      exec (.modexpc rd ra rb rn) s = .next (afterNormal s rd (s.reg ra ^ s.reg rb % s.reg rn)) ∧
      exec (.modexpc rd ra rb rn) s = exec (.modexp rd ra rb rn) s)) ∧
  decode 0x04301200 = .ok (.modexpc 3 0 1 2) ∧
  (∀ s : State, s.reg 1 = 17 → s.reg 2 = 3233 →
    (s.reg 0 = 65 → exec (.modexpc 3 0 1 2) s = .next (afterNormal s 3 2790)) ∧
    (s.reg 0 = 4000 → s.ovr = false → ∃ t, exec (.modexpc 3 0 1 2) s = .next t ∧
      readValue t 0x004 = 0x36 ∧ t.x = s.x))

/-- 41_modexp.md R124: for a key pair, MODEXPC of any message below the modulus completes with a value
below it, and MODEXP of that with the private exponent gives the message back. -/
def Obligations.RsaRoundTrip : Prop :=
  ∀ (s : State) (p q : Nat) (rc ro rm re rd rn : Reg),
    Nat.Prime p → Nat.Prime q → p ≠ q → s.reg rn = p * q →
    s.reg re * s.reg rd % ((p - 1) * (q - 1)) = 1 % ((p - 1) * (q - 1)) →
    s.reg rm < s.reg rn → rc ≠ rd → rc ≠ rn →
    ∃ t u, exec (.modexpc rc rm re rn) s = .next t ∧ t.err = false ∧ t.reg rc < s.reg rn ∧
      exec (.modexp ro rc rd rn) t = .next u ∧ u.err = false ∧ u.reg ro = s.reg rm

/-! ### MODINV -/

/-- 42_modinv.md R140, with its encoding and its worked examples: the value is the one `d` in
`[0, phi)` that inverts `e`. -/
def Obligations.ModinvResult : Prop :=
  (∀ rd ra rn : Reg, decode (BitVec.ofNat 32 (0x05000000 + rd.val * 2 ^ 20 + ra.val * 2 ^ 16 +
    rn.val * 2 ^ 8)) = .ok (.modinv rd ra rn)) ∧
  (∀ (s : State) (rd ra rn : Reg),
    (s.reg rn = 0 ∨ Nat.gcd (s.reg ra) (s.reg rn) ≠ 1 →
      exec (.modinv rd ra rn) s = .next (afterError s .invUndefined)) ∧
    (s.reg rn ≠ 0 → Nat.gcd (s.reg ra) (s.reg rn) = 1 →
      ∃ d, d < s.reg rn ∧ s.reg ra * d % s.reg rn = 1 % s.reg rn ∧
        (∀ d', d' < s.reg rn → s.reg ra * d' % s.reg rn = 1 % s.reg rn → d' = d) ∧
        exec (.modinv rd ra rn) s = .next (afterNormal s rd d))) ∧
  decode 0x05310200 = .ok (.modinv 3 1 2) ∧
  (∀ s : State,
    (s.reg 1 = 17 → s.reg 2 = 3120 → exec (.modinv 3 1 2) s = .next (afterNormal s 3 2753)) ∧
    (s.reg 1 = 4 → s.reg 2 = 8 → s.ovr = false →
      ∃ t, exec (.modinv 3 1 2) s = .next t ∧ readValue t 0x004 = 0x46))

/-- 42_modinv.md R144: every row of the table of corner cases. -/
def Obligations.ModinvCornerCases : Prop :=
  ∀ words e phi : Nat,
    modinvOf words e 0 = .error .invUndefined ∧ modinvOf words e 1 = .ok 0 ∧
    (phi ≥ 2 → modinvOf words 0 phi = .error .invUndefined ∧ modinvOf words 1 phi = .ok 1 ∧
      modinvOf words (phi - 1) phi = .ok (phi - 1)) ∧
    (phi ≥ 1 → e ≥ phi → modinvOf words e phi = modinvOf words (e % phi) phi) ∧
    modinvOf words 4 8 = .error .invUndefined ∧ modinvOf words 3 120 = .error .invUndefined ∧
    modinvOf words 5 120 = .error .invUndefined

/-- 42_modinv.md R143 (b), (c): MODINV fails exactly when the gcd is not 1, and MULMOD of the operand
with its inverse is `1 mod phi`. -/
def Obligations.ModinvTestsAndInverts : Prop :=
  ∀ words e phi : Nat, 1 ≤ phi →
    (modinvOf words e phi = .error .invUndefined ↔ Nat.gcd e phi ≠ 1) ∧
    (∀ d, modinvOf words e phi = .ok d → mulmodOf words e d phi = .ok (1 % phi))

/-! ### PRIMETEST -/

/-- 43_primetest.md R160, with its encoding and its worked examples: trial division by 2 and by the
odd numbers up to the integer square root. -/
def Obligations.PrimetestResult : Prop :=
  (∀ rd ra : Reg, decode (BitVec.ofNat 32 (0x06000000 + rd.val * 2 ^ 20 + ra.val * 2 ^ 16)) =
    .ok (.primetest rd ra)) ∧
  (∀ (s : State) (rd ra : Reg),
    let n := s.reg ra
    (n < 2 → exec (.primetest rd ra) s = .next (afterNormal s rd 0)) ∧
    (n = 2 → exec (.primetest rd ra) s = .next (afterNormal s rd 1)) ∧
    (n > 2 → n % 2 = 0 → exec (.primetest rd ra) s = .next (afterNormal s rd 0)) ∧
    (n > 2 → n % 2 = 1 → (∃ i, i % 2 = 1 ∧ 3 ≤ i ∧ i ≤ Nat.sqrt n ∧ n % i = 0) →
      exec (.primetest rd ra) s = .next (afterNormal s rd 0)) ∧
    (n > 2 → n % 2 = 1 → (¬ ∃ i, i % 2 = 1 ∧ 3 ≤ i ∧ i ≤ Nat.sqrt n ∧ n % i = 0) →
      exec (.primetest rd ra) s = .next (afterNormal s rd 1))) ∧
  decode 0x06100000 = .ok (.primetest 1 0) ∧
  (∀ s : State, (s.reg 0 = 97 → exec (.primetest 1 0) s = .next (afterNormal s 1 1)) ∧
    (s.reg 0 = 91 → exec (.primetest 1 0) s = .next (afterNormal s 1 0)))

/-- 43_primetest.md R161: the verdict is 1 for a prime and 0 for anything else. -/
def Obligations.PrimetestIsPrimality : Prop :=
  ∀ (s : State) (rd ra : Reg),
    (Nat.Prime (s.reg ra) → exec (.primetest rd ra) s = .next (afterNormal s rd 1)) ∧
    (¬ Nat.Prime (s.reg ra) → exec (.primetest rd ra) s = .next (afterNormal s rd 0))

/-! ### The host port -/

/-- 10_state.md R35: acceptance of any word by an idle block. -/
def Obligations.AcceptanceOfAnyWord : Prop :=
  ∀ (s : State) (w : Word), s.busy = false →
    step (beforeWrite 0x000 w s) = .next (afterAccept s w)

/-- 10_state.md R34: while BUSY, a write to CMD or to the operand window only sets OVR; writes to
STATUS, CTRL, PARAM and reserved offsets do what they do when idle and never set OVR; reads are not
affected (STATUS shows BUSY itself); completion and acceptance keep OVR, and it stays set until the
host clears it or reset. -/
def Obligations.DiscardedWrites : Prop :=
  (∀ (s : State) (off : Nat) (v : Word), WidthOk s → s.busy = true → off % 4 = 0 →
    (off = 0x000 ∨ 0x100 ≤ off ∧ off < 0x100 + 64 * s.words) →
    step (beforeWrite off v s) = .next { s with ovr := true }) ∧
  (∀ (s : State) (off : Nat) (v : Word), Inv s → s.busy = true → off % 4 = 0 → off < 0x1000 →
    ¬ (off = 0x000 ∨ 0x100 ≤ off ∧ off < 0x100 + 64 * s.words) →
    ∃ t, step (beforeWrite off v s) = .next t ∧
      step (beforeWrite off v { s with busy := false }) = .next { t with busy := false } ∧
      (t.ovr = true → s.ovr = true)) ∧
  (∀ (s : State) (off : Nat), off ≠ 0x004 →
    readValue { s with busy := true } off = readValue { s with busy := false } off) ∧
  (∀ s t : State, step (before .complete s) = .next t → t.ovr = s.ovr) ∧
  (∀ (s : State) (w : Word), s.busy = false →
    ∃ t, step (beforeWrite 0x000 w s) = .next t ∧ t.ovr = s.ovr) ∧
  (∀ s t : State, step s = .next t → s.ovr = true →
    t.ovr = true ∨ (∃ rest, s.schedule = .reset :: rest) ∨
      (∃ v rest, s.schedule = .host (.write 0x004 v) :: rest ∧ v.getLsbD 3 = true))

/-- 10_state.md R36: a host write to STATUS at any time. -/
def Obligations.StatusWriteClears : Prop :=
  ∀ (s : State) (v : Word), ∃ t, step (beforeWrite 0x004 v s) = .next t ∧
    (v.getLsbD 1 = true ∧ s.busy = false →
      t.done = false ∧ t.err = false ∧ t.ecode = .none ∧ irq t = false) ∧
    (v.getLsbD 1 = false ∨ s.busy = true →
      t.done = s.done ∧ t.err = s.err ∧ t.ecode = s.ecode) ∧
    t.ovr = (s.ovr && !v.getLsbD 3) ∧
    t.busy = s.busy ∧ t.x = s.x ∧ t.ie = s.ie ∧ t.inflight = s.inflight ∧ t.words = s.words

/-- 10_state.md R28: a host write to CTRL stores IE and nothing else, busy or idle; CTRL reads as IE
with zeros above; IE gates DONE onto `irq`; it is 0 after reset. -/
def Obligations.CtrlWriteStoresEnable : Prop :=
  ∀ (s : State) (v : Word),
    step (beforeWrite 0x008 v s) = .next { s with ie := v.getLsbD 0 } ∧
    (readValue s 0x008).getLsbD 0 = s.ie ∧
    (∀ i, 1 ≤ i → (readValue s 0x008).getLsbD i = false) ∧
    irq s = (s.ie && s.done) ∧
    ∃ t, step (before .reset s) = .next t ∧ t.ie = false

/-- 10_state.md R29: PARAM reads as WORDS and NREG, 0x00001002 in the reference build, and a write to it
does nothing. -/
def Obligations.ParamIsConstant : Prop :=
  ∀ (s : State) (v : Word), WidthOk s →
    (readValue s 0x00C).toNat = s.words + 16 * 2 ^ 8 ∧
    (s.words = 2 → readValue s 0x00C = 0x00001002) ∧
    step (beforeWrite 0x00C v s) = .next s ∧
    (∀ t, step s = .next t → t.words = s.words)

/-- The value a read returns is kept in the host's record of its reads: the model's form of "the sequence
of values the host's reads returned" (70_reset_and_hazards.md R246; log 4). -/
def Obligations.ReadValuesAreRecorded : Prop :=
  ∀ (s : State) (off : Nat), off % 4 = 0 → off < 0x1000 →
    step (beforeRead off s) = .next { s with reads := s.reads ++ [readValue s off] }

/-- 20_memory.md R52: what HostRead returns at every offset, that a read changes no state of the
block, and that reading again returns the same. -/
def Obligations.HostReadTable : Prop :=
  ∀ (s : State) (off : Nat), WidthOk s → off % 4 = 0 → off < 0x1000 →
    (∃ t, step (beforeRead off s) = .next t ∧ t = { s with reads := t.reads } ∧
      readValue t off = readValue s off) ∧
    ∃ v, readValue s off = v ∧
      (off = 0x000 → v = 0) ∧
      (off = 0x004 → v.toNat = s.busy.toNat + 2 * s.done.toNat + 4 * s.err.toNat +
        8 * s.ovr.toNat + 16 * codeOf s.ecode) ∧
      (off = 0x008 → v.toNat = s.ie.toNat) ∧
      (off = 0x00C → v.toNat = s.words + 16 * 2 ^ 8) ∧
      (∀ (i : Reg) (k : Nat), k < s.words → off = 0x100 + i.val * (s.width / 8) + 4 * k →
        v.toNat = s.reg i / 2 ^ (32 * k) % 2 ^ 32) ∧
      ((0x010 ≤ off ∧ off < 0x100) ∨ 0x100 + 2 * s.width ≤ off → v = 0)

/-- 20_memory.md R53: what HostWrite does at every offset, whole, in one step. An operand word is
replaced and every other word of the register kept. -/
def Obligations.HostWriteTable : Prop :=
  ∀ (s : State) (off : Nat) (v : Word), WidthOk s → off % 4 = 0 → off < 0x1000 →
    (off = 0x000 → step (beforeWrite off v s) =
      .next (if s.busy then { s with ovr := true } else afterAccept s v)) ∧
    (off = 0x004 → step (beforeWrite off v s) = .next
      { s with
        done := s.done && !(v.getLsbD 1 && !s.busy)
        err := s.err && !(v.getLsbD 1 && !s.busy)
        ecode := if v.getLsbD 1 && !s.busy then .none else s.ecode
        ovr := s.ovr && !v.getLsbD 3 }) ∧
    (off = 0x008 → step (beforeWrite off v s) = .next { s with ie := v.getLsbD 0 }) ∧
    (off = 0x00C → step (beforeWrite off v s) = .next s) ∧
    (∀ (i : Reg) (k : Nat), k < s.words → off = 0x100 + i.val * (s.width / 8) + 4 * k →
      (s.busy = true → step (beforeWrite off v s) = .next { s with ovr := true }) ∧
      (s.busy = false → ∃ y, step (beforeWrite off v s) = .next { s with x := s.x.set i.val y } ∧
        y / 2 ^ (32 * k) % 2 ^ 32 = v.toNat ∧
        (∀ j, j ≠ k → y / 2 ^ (32 * j) % 2 ^ 32 = s.reg i / 2 ^ (32 * j) % 2 ^ 32))) ∧
    ((0x010 ≤ off ∧ off < 0x100) ∨ 0x100 + 2 * s.width ≤ off →
      step (beforeWrite off v s) = .next s)

/-- 20_memory.md R54: the words read at a register's offsets, least significant first, make up its
value. -/
def Obligations.RegisterIsItsWords : Prop :=
  ∀ (s : State) (r : Reg), Inv s →
    s.reg r = ((List.range s.words).map fun k =>
      (readValue s (0x100 + r.val * (s.width / 8) + 4 * k)).toNat * 2 ^ (32 * k)).sum

/-- 20_memory.md R56: every access that is not an aligned 32-bit one inside the window is refused. -/
def Obligations.OtherAccessesAreRefused : Prop :=
  ∀ (s : State) (off : Nat) (v : Word),
    (∀ width, step (before (.host (.otherWidth width off)) s) =
      .refused (.notAWordAccess width off)) ∧
    (off % 4 ≠ 0 → step (beforeRead off s) = .refused (.misalignedAccess off) ∧
      step (beforeWrite off v s) = .refused (.misalignedAccess off)) ∧
    (off % 4 = 0 → off ≥ 0x1000 → step (beforeRead off s) = .refused (.outsideWindow off) ∧
      step (beforeWrite off v s) = .refused (.outsideWindow off))

/-- 20_memory.md R57: reserved offsets read as zero and ignore writes, busy or idle. -/
def Obligations.ReservedOffsetsAreInert : Prop :=
  ∀ (s : State) (off : Nat) (v : Word), off % 4 = 0 → off < 0x1000 →
    ((0x010 ≤ off ∧ off ≤ 0x0FF) ∨ 0x100 + 2 * s.width ≤ off) →
    readValue s off = 0 ∧ step (beforeWrite off v s) = .next s

/-- 10_state.md R26: the layout of the STATUS word, bit by bit. -/
def Obligations.StatusWordLayout : Prop :=
  ∀ s : State, ∃ w : Word, readValue s 0x004 = w ∧
    w.getLsbD 0 = s.busy ∧ w.getLsbD 1 = s.done ∧ w.getLsbD 2 = s.err ∧ w.getLsbD 3 = s.ovr ∧
    bitField w 4 4 = codeOf s.ecode ∧ bitField w 8 24 = 0

/-- 60_exceptions.md R206, R207: when `irq` rises and falls. It follows every completion, normal or
error, under the enable; the acknowledging write, the next acceptance and reset lower it; setting
IE with DONE pending raises it at once and masking keeps DONE; an overrun raises nothing. -/
def Obligations.InterruptLine : Prop :=
  (∀ s : State, irq s = (s.ie && s.done)) ∧
  (∀ s t : State, step (before .complete s) = .next t →
    t.done = true ∧ irq t = s.ie ∧ t.ie = s.ie) ∧
  (∀ (s : State) (w : Word), s.busy = false →
    ∃ t, step (beforeWrite 0x000 w s) = .next t ∧ t.done = false ∧ irq t = false) ∧
  (∀ (s : State) (v : Word), StatusOk s → v.getLsbD 1 = true →
    ∃ t, step (beforeWrite 0x004 v s) = .next t ∧ t.done = false ∧ irq t = false) ∧
  (∀ s : State, ∃ t, step (before .reset s) = .next t ∧ t.done = false ∧ t.ie = false ∧
    irq t = false) ∧
  (∀ (s : State) (v : Word), ∃ t, step (beforeWrite 0x008 v s) = .next t ∧
    irq t = (v.getLsbD 0 && s.done) ∧ t.done = s.done) ∧
  (∀ (s t : State) (off : Nat) (v : Word), s.busy = true → off ≠ 0x008 → StatusOk s →
    step (beforeWrite off v s) = .next t → irq t = irq s)

/-! ### The host's procedures -/

/-- 30_encoding.md R90: `LI` leaves the register holding the value and nothing else changed, and `RD`
gives it back. -/
def Obligations.LoadThenReadBack : Prop :=
  ∀ (s : State) (r : Reg) (v : Nat), Inv s → s.busy = false → v < 2 ^ s.width →
    li r v s = .next ((), { s with x := s.x.set r.val v }) ∧
    ∃ t, rdReg r { s with x := s.x.set r.val v } = .next (v, t) ∧
      t = { s with x := s.x.set r.val v, reads := t.reads }

/-- 45_host_procedures.md R180: for `2 ≤ bits ≤ W`, `generatePrime` answers the first prime among the
draws R180 admits, which lies in `[2^(bits-1), 2^bits)` and passes PRIMETEST, and only a list
without one leaves it unanswered. -/
def Obligations.GeneratePrimeFindsFirstPrime : Prop :=
  ∀ (latency : State → Nat) (bits : Nat) (draws : List Nat) (s : State), Inv s → s.busy = false →
    2 ≤ bits → bits ≤ s.width →
    (∀ skipped c rest, draws = skipped ++ c :: rest →
      (∀ a ∈ skipped, ¬ (DrawOk bits a ∧ Nat.Prime a)) → DrawOk bits c → Nat.Prime c →
      ∃ t, generatePrime latency bits draws s = .next (.ok (c, rest), t)) ∧
    ((∀ a ∈ draws, ¬ (DrawOk bits a ∧ Nat.Prime a)) →
      ∃ t, generatePrime latency bits draws s = .next (.error .drawsExhausted, t)) ∧
    (∀ p rest t, generatePrime latency bits draws s = .next (.ok (p, rest), t) →
      p ∈ draws ∧ 2 ^ (bits - 1) ≤ p ∧ p < 2 ^ bits ∧ primetestOf s.words p = .ok 1)

/-- 45_host_procedures.md R182 to R184: whatever key pair `generateKeys(bits)` answers has two distinct
primes of `bits` bits that were drawn, their product, a public exponent chosen by the document's
rule and a private exponent that inverts it modulo the totient. -/
def Obligations.GeneratedKeysAreAKeyPair : Prop :=
  ∀ (latency : State → Nat) (bits : Nat) (draws : List Nat) (s t : State) (k : KeyPair),
    Inv s → s.busy = false → generateKeys latency bits draws s = .next (.ok k, t) →
    Nat.Prime k.p ∧ Nat.Prime k.q ∧ k.p ≠ k.q ∧ k.p ∈ draws ∧ k.q ∈ draws ∧
    DrawOk bits k.p ∧ DrawOk bits k.q ∧ k.n = k.p * k.q ∧ k.n < 2 ^ s.width ∧
    k.e * k.d % ((k.p - 1) * (k.q - 1)) = 1 ∧ k.d < (k.p - 1) * (k.q - 1) ∧
    (65537 < (k.p - 1) * (k.q - 1) → k.e = 65537) ∧
    ((k.p - 1) * (k.q - 1) ≤ 65537 → k.e % 2 = 1 ∧ 3 ≤ k.e ∧
      ∀ e, e % 2 = 1 → 3 ≤ e → e < k.e → Nat.gcd e ((k.p - 1) * (k.q - 1)) ≠ 1)

/-- A procedure whose precondition fails says so and leaves the block untouched: a bit length outside
45_host_procedures.md R180's or R182's range, an argument the block cannot hold (00_scope.md R8). The
spec gives only the preconditions; the answer is the model's choice (log 23). -/
def Obligations.PreconditionsAreChecked : Prop :=
  ∀ (latency : State → Nat) (s : State) (bits : Nat) (draws : List Nat) (m e n : Nat),
    (bits < 2 ∨ s.width < bits →
      generatePrime latency bits draws s = .next (.error .outsideDomain, s)) ∧
    (bits < 2 ∨ s.width < 2 * bits →
      generateKeys latency bits draws s = .next (.error .outsideDomain, s)) ∧
    (e ≥ 2 ^ s.width ∨ n ≥ 2 ^ s.width →
      encrypt latency m e n s = .next (.error .outsideDomain, s)) ∧
    (m ≥ 2 ^ s.width ∨ e ≥ 2 ^ s.width ∨ n ≥ 2 ^ s.width →
      decrypt latency m e n s = .next (.error .outsideDomain, s))

/-- 45_host_procedures.md R186: `encrypt` answers `m^e mod n` for `m < n` and MessageTooLargeError
otherwise. -/
def Obligations.EncryptChecksAndComputes : Prop :=
  ∀ (latency : State → Nat) (s : State) (m e n : Nat), Inv s → s.busy = false →
    e < 2 ^ s.width → n < 2 ^ s.width →
    (m < n → ∃ t, encrypt latency m e n s = .next (.ok (m ^ e % n), t)) ∧
    (m ≥ n → ∃ t, encrypt latency m e n s = .next (.error .messageTooLarge, t))

/-- 45_host_procedures.md R187: `decrypt` answers `c^d mod n`, without a domain check. -/
def Obligations.DecryptComputes : Prop :=
  ∀ (latency : State → Nat) (s : State) (c d n : Nat), Inv s → s.busy = false →
    c < 2 ^ s.width → d < 2 ^ s.width → n < 2 ^ s.width →
    (n ≠ 0 → ∃ t, decrypt latency c d n s = .next (.ok (c ^ d % n), t)) ∧
    (n = 0 → ∃ t, decrypt latency c d n s = .next (.error (.blockError 2), t))

/-- 45_host_procedures.md R188: encrypting a text skips exactly the code points that are not below the
modulus. -/
def Obligations.TextEncryptionSkipsOversized : Prop :=
  ∀ (latency : State → Nat) (s : State) (e n : Nat) (codes : List Nat), Inv s → s.busy = false →
    e < 2 ^ s.width → n < 2 ^ s.width →
    ∃ t, encryptCodes latency e n codes s =
      .next (.ok ((codes.filter fun m => decide (m < n)).map fun m => m ^ e % n), t)

/-- 45_host_procedures.md R188: the codec is exact, both ways: every text comes back, and so does every
list of code points (Unicode scalar values; nothing is said of another number, log 24). -/
def Obligations.TextCodecRoundTrip : Prop :=
  (∀ text : String, integersToText (textToIntegers text) = text) ∧
  (∀ codes : List Nat, (∀ n ∈ codes, n < 0xD800 ∨ 0xDFFF < n ∧ n < 0x110000) →
    textToIntegers (integersToText codes) = codes)
end

