-- ==== Sys2Proof/Laws/Arith.lean ====
section
/-! SUPPORT. What the arithmetic functions compute: one specification lemma each, so that no proof
about a command unfolds a loop. -/

namespace Sys2Proof.Machine

theorem mulMod_lt (a b : Nat) {n : Nat} (hn : 0 < n) : mulMod a b n < n := Nat.mod_lt _ hn

/-- The square-and-multiply loop multiplies its accumulator by `base ^ exp`. -/
theorem squareMultiply_eq {n : Nat} (hn : 0 < n) (fuel : Nat) :
    ∀ result base exp : Nat, result < n → exp < 2 ^ fuel →
      squareMultiply n fuel result base exp = result * base ^ exp % n := by
  induction fuel with
  | zero =>
    intro result base exp hr he
    obtain rfl : exp = 0 := by simpa using he
    simp [squareMultiply, Nat.mod_eq_of_lt hr]
  | succ fuel ih =>
    intro result base exp hr he
    rw [squareMultiply]
    split_ifs with h0 h1
    · subst h0
      simp [Nat.mod_eq_of_lt hr]
    · have hexp : exp = 2 * (exp / 2) + 1 := by omega
      rw [ih _ _ _ (mulMod_lt _ _ hn) (by rw [pow_succ] at he; omega)]
      conv_rhs => rw [hexp, pow_succ, pow_mul]
      simp only [mulMod, pow_two]
      rw [Nat.mul_mod, Nat.mod_mod, Nat.pow_mod, Nat.mod_mod, ← Nat.pow_mod, ← Nat.mul_mod]
      congr 1
      ring
    · have hexp : exp = 2 * (exp / 2) := by omega
      rw [ih _ _ _ hr (by rw [pow_succ] at he; omega)]
      conv_rhs => rw [hexp, pow_mul]
      simp only [mulMod, pow_two]
      rw [Nat.mul_mod, Nat.pow_mod, Nat.mod_mod, ← Nat.pow_mod, ← Nat.mul_mod]

/-- Square-and-multiply gives the reduced exact power (41_modexp.md R120, R121). -/
theorem powMod_eq (c d : Nat) {n : Nat} (hn : 0 < n) : powMod c d n = c ^ d % n := by
  rw [powMod, squareMultiply_eq hn _ _ _ _ (Nat.mod_lt _ hn) Nat.lt_log2_self]
  rw [Nat.mul_mod, Nat.mod_mod, Nat.pow_mod, Nat.mod_mod, ← Nat.pow_mod, ← Nat.mul_mod, one_mul]

/-- Extended Euclid answers the gcd and a coefficient of `e` for it modulo `phi`. -/
theorem extEuclid_spec (e phi : Int) (fuel : Nat) :
    ∀ (r0 r1 : Nat) (t0 t1 : Int), r1 ≤ fuel →
      (r0 : Int) ≡ t0 * e [ZMOD phi] → (r1 : Int) ≡ t1 * e [ZMOD phi] →
      (extEuclid fuel r0 r1 t0 t1).1 = Nat.gcd r0 r1 ∧
        ((extEuclid fuel r0 r1 t0 t1).1 : Int) ≡
          (extEuclid fuel r0 r1 t0 t1).2 * e [ZMOD phi] := by
  induction fuel with
  | zero =>
    intro r0 r1 t0 t1 hf h0 _
    obtain rfl : r1 = 0 := by omega
    exact ⟨by simp [extEuclid], by simpa [extEuclid] using h0⟩
  | succ fuel ih =>
    intro r0 r1 t0 t1 hf h0 h1
    rw [extEuclid]
    split_ifs with hz
    · subst hz
      exact ⟨by simp, by simpa using h0⟩
    · have hlt : r0 % r1 < r1 := Nat.mod_lt _ (by omega)
      have hcong : ((r0 % r1 : Nat) : Int) ≡ (t0 - (r0 / r1 : Nat) * t1) * e [ZMOD phi] := by
        have hdiv : ((r0 % r1 : Nat) : Int) = r0 - (r0 / r1 : Nat) * r1 := by
          have := Nat.div_add_mod r0 r1
          have h : ((r1 * (r0 / r1) + r0 % r1 : Nat) : Int) = (r0 : Int) := by exact_mod_cast this
          push_cast at h ⊢
          linarith
        rw [hdiv, sub_mul, mul_assoc]
        exact h0.sub (h1.mul_left _)
      have := ih r1 (r0 % r1) t1 (t0 - (r0 / r1 : Nat) * t1) (by omega) h1 hcong
      rw [Nat.gcd_comm r0 r1, Nat.gcd_rec r1 r0, Nat.gcd_comm (r0 % r1) r1]
      exact this

/-- There is an inverse exactly for a nonzero modulus coprime to `e` (42_modinv.md R140, R141). -/
theorem modInv?_eq_none_iff (e phi : Nat) :
    modInv? e phi = none ↔ phi = 0 ∨ Nat.gcd e phi ≠ 1 := by
  rw [modInv?]
  split_ifs with hz
  · simp [hz]
  · have hspec := extEuclid_spec e phi phi phi (e % phi) 0 1
      (Nat.mod_lt _ (by omega)).le (by simp [Int.modEq_iff_dvd]) (by simpa using Int.mod_modEq _ _)
    have hg : (extEuclid phi phi (e % phi) 0 1).1 = Nat.gcd e phi := by
      rw [hspec.1, Nat.gcd_comm e phi, Nat.gcd_rec phi e, Nat.gcd_comm]
    simp [hg, hz]

/-- The inverse found is in `[0, phi)` and inverts `e` (42_modinv.md R140). -/
theorem modInv?_spec {e phi d : Nat} (h : modInv? e phi = some d) :
    d < phi ∧ e * d % phi = 1 % phi := by
  rw [modInv?] at h
  split_ifs at h with hz
  have hspec := (extEuclid_spec e phi phi phi (e % phi) 0 1
    (Nat.mod_lt _ (by omega)).le (by simp [Int.modEq_iff_dvd])
    (by simpa using Int.mod_modEq _ _)).2
  generalize extEuclid phi phi (e % phi) 0 1 = r at h hspec
  obtain ⟨g, t⟩ := r
  simp only at h hspec
  split_ifs at h with hg
  have hd : (t % (phi : Int)).toNat = d := by simpa using h
  have hpos : (0 : Int) < phi := by exact_mod_cast Nat.pos_of_ne_zero hz
  have hnn := Int.emod_nonneg t hpos.ne'
  have hdt : (d : Int) = t % phi := by rw [← hd, Int.toNat_of_nonneg hnn]
  refine ⟨by have := Int.emod_lt_of_pos t hpos; omega, ?_⟩
  have hcong : ((e * d : Nat) : Int) ≡ ((1 : Nat) : Int) [ZMOD phi] := by
    push_cast
    rw [hdt]
    have h1 : (e : Int) * (t % phi) ≡ e * t [ZMOD phi] := (Int.mod_modEq _ _).mul_left _
    refine h1.trans ?_
    rw [mul_comm]
    simpa [hg] using hspec.symm
  exact (Int.natCast_modEq_iff.mp hcong)

/-- Two inverses of one number in `[0, phi)` are equal: the result is unique (42_modinv.md R141). -/
theorem inverse_unique {e phi d d' : Nat} (hd : d < phi) (hd' : d' < phi)
    (h : e * d % phi = 1 % phi) (h' : e * d' % phi = 1 % phi) : d = d' := by
  have h1 : d * (e * d') ≡ d * 1 [MOD phi] := Nat.ModEq.mul_left d h'
  have h2 : d' * (e * d) ≡ d' * 1 [MOD phi] := Nat.ModEq.mul_left d' h
  have h3 : d ≡ d' [MOD phi] := by
    have : d * (e * d') = d' * (e * d) := by ring
    rw [this] at h1
    simpa using h1.symm.trans h2
  exact Nat.ModEq.eq_of_lt_of_lt h3 hd hd'

/-- `Rinv` of an odd modulus is below it and inverts the radix (40_modmul.md R103). -/
theorem radixInv_spec (w : Nat) {n : Nat} (hn : n % 2 = 1) :
    radixInv w n < n ∧ 2 ^ w * radixInv w n % n = 1 % n := by
  rw [radixInv]
  have hcop : Nat.gcd (2 ^ w) n = 1 :=
    Nat.Coprime.pow_left w (Nat.coprime_two_left.mpr (Nat.odd_iff.mpr hn))
  cases h : modInv? (2 ^ w) n with
  | none =>
    rcases (modInv?_eq_none_iff _ _).mp h with h0 | h1
    · omega
    · exact absurd hcop h1
  | some d => simpa using modInv?_spec h

/-- The Montgomery product is below the modulus and undoes one factor `2^w` (40_modmul.md R103). -/
theorem montMul_spec (w a b : Nat) {n : Nat} (hn : n % 2 = 1) :
    montMul w a b n < n ∧ montMul w a b n * 2 ^ w % n = a * b % n := by
  have hpos : 0 < n := by omega
  refine ⟨Nat.mod_lt _ hpos, ?_⟩
  rw [montMul, Nat.mod_mul_mod]
  have h : 2 ^ w * radixInv w n ≡ 1 [MOD n] := (radixInv_spec w hn).2
  have := Nat.ModEq.mul_left (a * b) h
  calc a * b * radixInv w n * 2 ^ w % n = a * b * (2 ^ w * radixInv w n) % n := by ring_nf
    _ = a * b * 1 % n := this
    _ = a * b % n := by rw [mul_one]

/-- The divisor loop is true iff no candidate from `i` up in steps of two, with a square at most
`n`, divides `n`; `fuel` need only carry the loop past the square root. -/
theorem noOddDivisor_iff (n : Nat) (fuel : Nat) :
    ∀ i, n < (i + 2 * fuel) * (i + 2 * fuel) →
      (noOddDivisor n fuel i = true ↔
        ∀ j, i ≤ j → j % 2 = i % 2 → j * j ≤ n → n % j ≠ 0) := by
  induction fuel with
  | zero =>
    intro i hf
    simp only [noOddDivisor, true_iff]
    intro j hij _ hjj
    have : i * i ≤ j * j := Nat.mul_le_mul hij hij
    simp at hf
    omega
  | succ fuel ih =>
    intro i hf
    rw [noOddDivisor]
    split_ifs with hle hdiv
    · simp only [false_iff]
      intro h
      exact h i le_rfl rfl hle hdiv
    · rw [ih (i + 2) (by rwa [show i + 2 + 2 * fuel = i + 2 * (fuel + 1) by ring])]
      constructor
      · intro h j hij hpar hjj
        rcases Nat.lt_or_ge j (i + 2) with hlt | hge
        · obtain rfl : j = i := by omega
          exact hdiv
        · exact h j hge (by omega) hjj
      · intro h j hij hpar hjj
        exact h j (by omega) (by omega) hjj
    · simp only [true_iff]
      intro j hij _ hjj
      have : i * i ≤ j * j := Nat.mul_le_mul hij hij
      omega

/-- The loop of 43_primetest.md R162 gives the verdict of R160 on an odd candidate above 2. -/
theorem noOddDivisor_three_iff {n : Nat} :
    noOddDivisor n n 3 = true ↔ ∀ j, 3 ≤ j → j % 2 = 1 → j * j ≤ n → n % j ≠ 0 :=
  noOddDivisor_iff n n 3 (by nlinarith)

end Sys2Proof.Machine
end

