-- ==== Sys2Proof/Laws/Decode.lean ====
section
/-! SUPPORT. The fields of a packed word, and a word through its bytes. -/

namespace Sys2Proof

theorem bitField_lt (w : Word) (lo n : Nat) : bitField w lo n < 2 ^ n :=
  Nat.mod_lt _ (by positivity)

/-- The number a packed word is (30_encoding.md R81); nothing of it is lost in 32 bits. -/
theorem packWord_toNat {op : Nat} (hop : op < 256) (rd ra rb rn : Reg) :
    (packWord op rd ra rb rn).toNat =
      op * 2 ^ 24 + rd.val * 2 ^ 20 + ra.val * 2 ^ 16 + rb.val * 2 ^ 12 + rn.val * 2 ^ 8 := by
  rw [packWord, BitVec.toNat_ofNat, Nat.mod_eq_of_lt (by omega)]

theorem bitField_packWord_op {op : Nat} (hop : op < 256) (rd ra rb rn : Reg) :
    bitField (packWord op rd ra rb rn) 24 8 = op := by
  rw [bitField, packWord_toNat hop]; omega

theorem bitField_packWord_z {op : Nat} (hop : op < 256) (rd ra rb rn : Reg) :
    bitField (packWord op rd ra rb rn) 0 8 = 0 := by
  rw [bitField, packWord_toNat hop]; omega

theorem regField_packWord_rd {op : Nat} (hop : op < 256) (rd ra rb rn : Reg) :
    regField (packWord op rd ra rb rn) 20 = rd := by
  apply Fin.ext; simp only [regField, bitField, packWord_toNat hop, Fin.ofNat]; omega

theorem regField_packWord_ra {op : Nat} (hop : op < 256) (rd ra rb rn : Reg) :
    regField (packWord op rd ra rb rn) 16 = ra := by
  apply Fin.ext; simp only [regField, bitField, packWord_toNat hop, Fin.ofNat]; omega

theorem regField_packWord_rb {op : Nat} (hop : op < 256) (rd ra rb rn : Reg) :
    regField (packWord op rd ra rb rn) 12 = rb := by
  apply Fin.ext; simp only [regField, bitField, packWord_toNat hop, Fin.ofNat]; omega

theorem regField_packWord_rn {op : Nat} (hop : op < 256) (rd ra rb rn : Reg) :
    regField (packWord op rd ra rb rn) 8 = rn := by
  apply Fin.ext; simp only [regField, bitField, packWord_toNat hop, Fin.ofNat]; omega

/-- A word is the packing of its own fields when its low byte is zero. -/
theorem packWord_fields {w : Word} (hz : bitField w 0 8 = 0) :
    packWord (bitField w 24 8) (regField w 20) (regField w 16) (regField w 12) (regField w 8) =
      w := by
  apply BitVec.eq_of_toNat_eq
  rw [packWord_toNat (bitField_lt w 24 8)]
  have := w.isLt
  simp only [regField, bitField, Fin.ofNat] at hz ⊢
  omega

/-- Little-endian bytes and back (20_memory.md R55 (b)). -/
theorem wordOfBytes_wordBytes (w : Word) :
    wordOfBytes (BitVec.ofNat 8 (bitField w 0 8)) (BitVec.ofNat 8 (bitField w 8 8))
      (BitVec.ofNat 8 (bitField w 16 8)) (BitVec.ofNat 8 (bitField w 24 8)) = w := by
  apply BitVec.eq_of_toNat_eq
  have := w.isLt
  simp only [wordOfBytes, bitField, BitVec.toNat_ofNat]
  omega

/-- The decoder on the bytes of a word is the decoder on the word. -/
theorem decodeBytes_wordBytes (w : Word) (rest : List Byte) :
    decodeBytes (wordBytes w ++ rest) = (decode w).map fun i => (i, rest) := by
  rw [wordBytes, List.cons_append, List.cons_append, List.cons_append, List.cons_append,
    List.nil_append, decodeBytes, wordOfBytes_wordBytes]

end Sys2Proof
end

