-- ==== Sys2Proof/Laws/State.lean ====
section
/-! SUPPORT. One lemma per field per update of State, so that no proof unfolds a record update. -/

namespace Sys2Proof.Machine

variable (s : State)

/-! ### Registers -/

@[simp] theorem State.reg_setReg_same (r : Reg) (v : Nat) : (s.setReg r v).reg r = v := by
  simp [State.reg, State.setReg]

theorem State.reg_setReg_ne {r q : Reg} (h : q ≠ r) (v : Nat) : (s.setReg r v).reg q = s.reg q := by
  have : r.val ≠ q.val := fun e => h (Fin.ext e.symm)
  simp [State.reg, State.setReg, Vector.getElem_set_ne, this]

@[simp] theorem State.reg_schedule (l : List Event) (r : Reg) :
    ({ s with schedule := l } : State).reg r = s.reg r := rfl

@[simp] theorem accept_reg (w : Word) (r : Reg) : (accept s w).reg r = s.reg r := rfl
@[simp] theorem normalCompletion_reg_same (r : Reg) (v : Nat) :
    (normalCompletion s r v).reg r = v := State.reg_setReg_same s r v
theorem normalCompletion_reg_ne {r q : Reg} (h : q ≠ r) (v : Nat) :
    (normalCompletion s r v).reg q = s.reg q := State.reg_setReg_ne s h v
@[simp] theorem errorCompletion_reg (c : ECode) (r : Reg) :
    (errorCompletion s c).reg r = s.reg r := rfl
@[simp] theorem writeCtrl_reg (v : Word) (r : Reg) : (writeCtrl s v).reg r = s.reg r := rfl
@[simp] theorem overrun_reg (r : Reg) : (overrun s).reg r = s.reg r := rfl
@[simp] theorem hostRead_reg (off : Nat) (r : Reg) : (hostRead s off).reg r = s.reg r := rfl
@[simp] theorem applyReset_reg (r : Reg) : (applyReset s).reg r = 0 := by
  simp [State.reg, applyReset, State.resetFor]

/-! ### setReg -/

@[simp] theorem State.setReg_words (r : Reg) (v : Nat) : (s.setReg r v).words = s.words := rfl
@[simp] theorem State.setReg_busy (r : Reg) (v : Nat) : (s.setReg r v).busy = s.busy := rfl
@[simp] theorem State.setReg_done (r : Reg) (v : Nat) : (s.setReg r v).done = s.done := rfl
@[simp] theorem State.setReg_err (r : Reg) (v : Nat) : (s.setReg r v).err = s.err := rfl
@[simp] theorem State.setReg_ovr (r : Reg) (v : Nat) : (s.setReg r v).ovr = s.ovr := rfl
@[simp] theorem State.setReg_ecode (r : Reg) (v : Nat) : (s.setReg r v).ecode = s.ecode := rfl
@[simp] theorem State.setReg_ie (r : Reg) (v : Nat) : (s.setReg r v).ie = s.ie := rfl
@[simp] theorem State.setReg_inflight (r : Reg) (v : Nat) :
    (s.setReg r v).inflight = s.inflight := rfl
@[simp] theorem State.setReg_schedule (r : Reg) (v : Nat) :
    (s.setReg r v).schedule = s.schedule := rfl
@[simp] theorem State.setReg_reads (r : Reg) (v : Nat) : (s.setReg r v).reads = s.reads := rfl

/-! ### accept -/

@[simp] theorem accept_words (w : Word) : (accept s w).words = s.words := rfl
@[simp] theorem accept_busy (w : Word) : (accept s w).busy = true := rfl
@[simp] theorem accept_done (w : Word) : (accept s w).done = false := rfl
@[simp] theorem accept_err (w : Word) : (accept s w).err = false := rfl
@[simp] theorem accept_ovr (w : Word) : (accept s w).ovr = s.ovr := rfl
@[simp] theorem accept_ecode (w : Word) : (accept s w).ecode = .none := rfl
@[simp] theorem accept_ie (w : Word) : (accept s w).ie = s.ie := rfl
@[simp] theorem accept_inflight (w : Word) : (accept s w).inflight = some w := rfl
@[simp] theorem accept_schedule (w : Word) : (accept s w).schedule = s.schedule := rfl
@[simp] theorem accept_reads (w : Word) : (accept s w).reads = s.reads := rfl

/-! ### normalCompletion -/

@[simp] theorem normalCompletion_words (r : Reg) (v : Nat) :
    (normalCompletion s r v).words = s.words := rfl
@[simp] theorem normalCompletion_busy (r : Reg) (v : Nat) :
    (normalCompletion s r v).busy = false := rfl
@[simp] theorem normalCompletion_done (r : Reg) (v : Nat) :
    (normalCompletion s r v).done = true := rfl
@[simp] theorem normalCompletion_err (r : Reg) (v : Nat) :
    (normalCompletion s r v).err = false := rfl
@[simp] theorem normalCompletion_ovr (r : Reg) (v : Nat) :
    (normalCompletion s r v).ovr = s.ovr := rfl
@[simp] theorem normalCompletion_ecode (r : Reg) (v : Nat) :
    (normalCompletion s r v).ecode = .none := rfl
@[simp] theorem normalCompletion_ie (r : Reg) (v : Nat) :
    (normalCompletion s r v).ie = s.ie := rfl
@[simp] theorem normalCompletion_inflight (r : Reg) (v : Nat) :
    (normalCompletion s r v).inflight = none := rfl
@[simp] theorem normalCompletion_schedule (r : Reg) (v : Nat) :
    (normalCompletion s r v).schedule = s.schedule := rfl
@[simp] theorem normalCompletion_reads (r : Reg) (v : Nat) :
    (normalCompletion s r v).reads = s.reads := rfl

/-! ### errorCompletion -/

@[simp] theorem errorCompletion_words (c : ECode) : (errorCompletion s c).words = s.words := rfl
@[simp] theorem errorCompletion_busy (c : ECode) : (errorCompletion s c).busy = false := rfl
@[simp] theorem errorCompletion_done (c : ECode) : (errorCompletion s c).done = true := rfl
@[simp] theorem errorCompletion_err (c : ECode) : (errorCompletion s c).err = true := rfl
@[simp] theorem errorCompletion_ovr (c : ECode) : (errorCompletion s c).ovr = s.ovr := rfl
@[simp] theorem errorCompletion_ecode (c : ECode) : (errorCompletion s c).ecode = c := rfl
@[simp] theorem errorCompletion_ie (c : ECode) : (errorCompletion s c).ie = s.ie := rfl
@[simp] theorem errorCompletion_inflight (c : ECode) : (errorCompletion s c).inflight = none := rfl
@[simp] theorem errorCompletion_schedule (c : ECode) :
    (errorCompletion s c).schedule = s.schedule := rfl
@[simp] theorem errorCompletion_reads (c : ECode) : (errorCompletion s c).reads = s.reads := rfl

/-! ### writeCtrl -/

@[simp] theorem writeCtrl_words (v : Word) : (writeCtrl s v).words = s.words := rfl
@[simp] theorem writeCtrl_busy (v : Word) : (writeCtrl s v).busy = s.busy := rfl
@[simp] theorem writeCtrl_done (v : Word) : (writeCtrl s v).done = s.done := rfl
@[simp] theorem writeCtrl_err (v : Word) : (writeCtrl s v).err = s.err := rfl
@[simp] theorem writeCtrl_ovr (v : Word) : (writeCtrl s v).ovr = s.ovr := rfl
@[simp] theorem writeCtrl_ecode (v : Word) : (writeCtrl s v).ecode = s.ecode := rfl
@[simp] theorem writeCtrl_ie (v : Word) : (writeCtrl s v).ie = v.getLsbD 0 := rfl
@[simp] theorem writeCtrl_inflight (v : Word) : (writeCtrl s v).inflight = s.inflight := rfl
@[simp] theorem writeCtrl_schedule (v : Word) : (writeCtrl s v).schedule = s.schedule := rfl
@[simp] theorem writeCtrl_reads (v : Word) : (writeCtrl s v).reads = s.reads := rfl

/-! ### overrun -/

@[simp] theorem overrun_words : (overrun s).words = s.words := rfl
@[simp] theorem overrun_busy : (overrun s).busy = s.busy := rfl
@[simp] theorem overrun_done : (overrun s).done = s.done := rfl
@[simp] theorem overrun_err : (overrun s).err = s.err := rfl
@[simp] theorem overrun_ovr : (overrun s).ovr = true := rfl
@[simp] theorem overrun_ecode : (overrun s).ecode = s.ecode := rfl
@[simp] theorem overrun_ie : (overrun s).ie = s.ie := rfl
@[simp] theorem overrun_inflight : (overrun s).inflight = s.inflight := rfl
@[simp] theorem overrun_schedule : (overrun s).schedule = s.schedule := rfl
@[simp] theorem overrun_reads : (overrun s).reads = s.reads := rfl

/-! ### hostRead -/

@[simp] theorem hostRead_words (off : Nat) : (hostRead s off).words = s.words := rfl
@[simp] theorem hostRead_busy (off : Nat) : (hostRead s off).busy = s.busy := rfl
@[simp] theorem hostRead_done (off : Nat) : (hostRead s off).done = s.done := rfl
@[simp] theorem hostRead_err (off : Nat) : (hostRead s off).err = s.err := rfl
@[simp] theorem hostRead_ovr (off : Nat) : (hostRead s off).ovr = s.ovr := rfl
@[simp] theorem hostRead_ecode (off : Nat) : (hostRead s off).ecode = s.ecode := rfl
@[simp] theorem hostRead_ie (off : Nat) : (hostRead s off).ie = s.ie := rfl
@[simp] theorem hostRead_inflight (off : Nat) : (hostRead s off).inflight = s.inflight := rfl
@[simp] theorem hostRead_schedule (off : Nat) : (hostRead s off).schedule = s.schedule := rfl
@[simp] theorem hostRead_reads (off : Nat) :
    (hostRead s off).reads = s.reads ++ [readValue s off] := rfl

/-! ### applyReset -/

@[simp] theorem applyReset_words : (applyReset s).words = s.words := rfl
@[simp] theorem applyReset_busy : (applyReset s).busy = false := rfl
@[simp] theorem applyReset_done : (applyReset s).done = false := rfl
@[simp] theorem applyReset_err : (applyReset s).err = false := rfl
@[simp] theorem applyReset_ovr : (applyReset s).ovr = false := rfl
@[simp] theorem applyReset_ecode : (applyReset s).ecode = .none := rfl
@[simp] theorem applyReset_ie : (applyReset s).ie = false := rfl
@[simp] theorem applyReset_inflight : (applyReset s).inflight = none := rfl
@[simp] theorem applyReset_schedule : (applyReset s).schedule = s.schedule := rfl
@[simp] theorem applyReset_reads : (applyReset s).reads = s.reads := rfl

end Sys2Proof.Machine
end

