-- ==== Sys2Proof/Laws/Port.lean ====
section
/-! SUPPORT. The words of a register and the address map of the operand window. -/

namespace Sys2Proof.Machine

/-- The word written is the word read back (20_memory.md R53, R54). -/
theorem regWord_setRegWord_same (v k : Nat) (w : Word) : regWord (setRegWord v k w) k = w := by
  apply BitVec.eq_of_toNat_eq
  have hp : 0 < 2 ^ (32 * k) := by positivity
  have hv : v % 2 ^ (32 * k) < 2 ^ (32 * k) := Nat.mod_lt _ hp
  have hw := w.isLt
  simp only [regWord, BitVec.toNat_ofNat, setRegWord]
  have e : v / 2 ^ (32 * (k + 1)) * 2 ^ (32 * (k + 1)) + w.toNat * 2 ^ (32 * k) +
      v % 2 ^ (32 * k) =
      (v / 2 ^ (32 * (k + 1)) * 2 ^ 32 + w.toNat) * 2 ^ (32 * k) + v % 2 ^ (32 * k) := by
    rw [show 32 * (k + 1) = 32 + 32 * k by ring, pow_add]; ring
  rw [e, Nat.add_comm, Nat.add_mul_div_right _ _ hp, Nat.div_eq_of_lt hv, Nat.zero_add,
    Nat.add_comm, Nat.add_mul_mod_self_right, Nat.mod_eq_of_lt hw]

/-- The number a word write leaves, bit by bit: the new word in its place, the old bits elsewhere. -/
theorem setRegWord_testBit (v k : Nat) (w : Word) (i : Nat) :
    (setRegWord v k w).testBit i =
      if 32 * k ≤ i ∧ i < 32 * (k + 1) then w.toNat.testBit (i - 32 * k) else v.testBit i := by
  have hlow : w.toNat * 2 ^ (32 * k) + v % 2 ^ (32 * k) < 2 ^ (32 * (k + 1)) := by
    have hv : v % 2 ^ (32 * k) < 2 ^ (32 * k) := Nat.mod_lt _ (by positivity)
    have hw : w.toNat + 1 ≤ 2 ^ 32 := w.isLt
    rw [show 32 * (k + 1) = 32 + 32 * k by ring, pow_add]
    have := Nat.mul_le_mul_right (2 ^ (32 * k)) hw
    rw [Nat.add_mul] at this
    omega
  have e1 : setRegWord v k w =
      2 ^ (32 * (k + 1)) * (v / 2 ^ (32 * (k + 1))) +
        (2 ^ (32 * k) * w.toNat + v % 2 ^ (32 * k)) := by
    rw [setRegWord]; ring
  rw [e1, Nat.testBit_two_pow_mul_add _ (by rwa [Nat.mul_comm]), Nat.testBit_two_pow_mul_add _
    (Nat.mod_lt _ (by positivity))]
  by_cases h1 : i < 32 * k
  · rw [if_pos (by omega), if_pos h1, if_neg (by omega), Nat.testBit_mod_two_pow]
    simp [h1]
  · by_cases h2 : i < 32 * (k + 1)
    · rw [if_pos h2, if_neg h1, if_pos (by omega)]
    · rw [if_neg h2, if_neg (by omega), Nat.testBit_div_two_pow]
      congr 1
      omega

/-- The other words are unchanged (20_memory.md R53). -/
theorem regWord_setRegWord_ne (v : Nat) {k j : Nat} (h : j ≠ k) (w : Word) :
    regWord (setRegWord v k w) j = regWord v j := by
  apply BitVec.eq_of_toNat_eq
  simp only [regWord, BitVec.toNat_ofNat]
  apply Nat.eq_of_testBit_eq
  intro i
  simp only [Nat.testBit_mod_two_pow, Nat.testBit_div_two_pow, setRegWord_testBit]
  by_cases hi : i < 32
  · have : ¬ (32 * k ≤ i + 32 * j ∧ i + 32 * j < 32 * (k + 1)) := by omega
    simp [hi, this]
  · simp [hi]

/-- A word written inside a W-bit register leaves a W-bit value. -/
theorem setRegWord_lt {v k words : Nat} (w : Word) (hv : v < 2 ^ (32 * words)) (hk : k < words) :
    setRegWord v k w < 2 ^ (32 * words) := by
  apply Nat.lt_pow_two_of_testBit
  intro i hi
  have : ¬ (32 * k ≤ i ∧ i < 32 * (k + 1)) := by omega
  rw [setRegWord_testBit, if_neg this]
  exact Nat.testBit_lt_two_pow (hv.trans_le (Nat.pow_le_pow_right (by omega) hi))

/-- Word `k` of `x[r]` is where 20_memory.md R52 puts it. -/
theorem targetOf_operandOffset {words k : Nat} (r : Reg) (hk : k < words) :
    targetOf words (operandOffset words r k) = .operand r k := by
  have hr := r.isLt
  have hpos : 0 < 4 * words := by omega
  have hmul : r.val * (4 * words) + 4 * words ≤ 16 * (4 * words) := by nlinarith
  have hoff : operandOffset words r k = 256 + r.val * (4 * words) + 4 * k := rfl
  rw [targetOf, if_neg (by rw [hoff, Config.cmdOff]; omega),
    if_neg (by rw [hoff, Config.statusOff]; omega), if_neg (by rw [hoff, Config.ctrlOff]; omega),
    if_neg (by rw [hoff, Config.paramOff]; omega),
    if_pos (by rw [hoff, Config.operandOff, Config.nreg]; omega)]
  have e : operandOffset words r k - Config.operandOff = 4 * k + r.val * (4 * words) := by
    rw [hoff, Config.operandOff]; omega
  rw [e, Target.operand.injEq]
  constructor
  · apply Fin.ext
    rw [Nat.add_mul_div_right _ _ hpos, Nat.div_eq_of_lt (by omega)]
    simp [Fin.ofNat, Nat.mod_eq_of_lt hr]
  · rw [Nat.add_mul_mod_self_right, Nat.mod_eq_of_lt (by omega)]
    omega

/-- Any offset the map gives to an operand register holds a word of that register, and inside the
window it is that word's own offset when aligned. -/
theorem operand_of_targetOf {words off k : Nat} {r : Reg} (h : targetOf words off = .operand r k) :
    k < words ∧ Config.operandOff + r.val * (4 * words) ≤ off ∧
      off < Config.operandOff + r.val * (4 * words) + 4 * words := by
  simp only [targetOf] at h
  split_ifs at h with _ _ _ _ hin
  simp only [Target.operand.injEq] at h
  obtain ⟨hr, hk⟩ := h
  simp only [Config.operandOff, Config.nreg] at *
  have hpos : 0 < 4 * words := by
    rcases Nat.eq_zero_or_pos words with rfl | h0
    · omega
    · omega
  have hdm := Nat.div_add_mod (off - 256) (4 * words)
  have hmod := Nat.mod_lt (off - 256) hpos
  have hlt : (off - 256) / (4 * words) < 16 := by
    rw [Nat.div_lt_iff_lt_mul hpos]; omega
  have hrv : r.val = (off - 256) / (4 * words) := by
    rw [← hr]; simp [Fin.ofNat, Nat.mod_eq_of_lt hlt]
  have hcomm : r.val * (4 * words) = 4 * words * ((off - 256) / (4 * words)) := by
    rw [hrv, Nat.mul_comm]
  refine ⟨by omega, by omega, by omega⟩

end Sys2Proof.Machine
end

