-- ==== Sys2Proof/Laws/Ops.lean ====
section
/-! SUPPORT. What each shared operation can do, said once: the two ends of a command, the effects of a
host access, a completion, and a step. -/

namespace Sys2Proof.Machine

/-- A command ends normally with some value in its destination, or with an error code and nothing
else changed; and the value fits the register (10_state.md R32, R33, 60_exceptions.md R201,
00_scope.md R8). -/
theorem exec_cases (i : Instr) (s : State) :
    (∃ v, exec i s = .next (normalCompletion s i.dest v) ∧
      (1 ≤ s.words → RegsFit s → v < 2 ^ s.width)) ∨
    (∃ c, c ≠ .none ∧ exec i s = .next (errorCompletion s c)) := by
  cases i with
  | mulmod rd ra rb rn =>
    by_cases h : s.reg rn = 0
    · exact .inr ⟨.modZero, by decide, by simp [exec, execMulmod, raiseError, h]⟩
    · exact .inl ⟨mulMod (s.reg ra) (s.reg rb) (s.reg rn),
        by simp [exec, execMulmod, finish, h, Instr.dest],
        fun _ hf => (mulMod_lt _ _ (by omega)).trans (hf rn)⟩
  | montmul rd ra rb rn =>
    by_cases h : s.reg rn = 0
    · exact .inr ⟨.modZero, by decide, by simp [exec, execMontmul, raiseError, h]⟩
    by_cases h2 : s.reg rn % 2 = 0
    · exact .inr ⟨.modEven, by decide, by simp [exec, execMontmul, raiseError, h, h2]⟩
    · exact .inl ⟨montMul s.width (s.reg ra) (s.reg rb) (s.reg rn),
        by simp [exec, execMontmul, finish, h, h2, Instr.dest],
        fun _ hf => (montMul_spec _ _ _ (by omega)).1.trans (hf rn)⟩
  | modexp rd ra rb rn =>
    by_cases h : s.reg rn = 0
    · exact .inr ⟨.modZero, by decide, by simp [exec, execModexp, raiseError, h]⟩
    · refine .inl ⟨powMod (s.reg ra) (s.reg rb) (s.reg rn),
        by simp [exec, execModexp, finish, h, Instr.dest], fun _ hf => ?_⟩
      rw [powMod_eq _ _ (by omega)]
      exact (Nat.mod_lt _ (by omega)).trans (hf rn)
  | modexpc rd ra rb rn =>
    by_cases h : s.reg rn ≤ s.reg ra
    · exact .inr ⟨.msgTooLarge, by decide, by simp [exec, execModexpc, raiseError, h]⟩
    · refine .inl ⟨powMod (s.reg ra) (s.reg rb) (s.reg rn),
        by simp [exec, execModexpc, finish, h, Instr.dest], fun _ hf => ?_⟩
      rw [powMod_eq _ _ (by omega)]
      exact (Nat.mod_lt _ (by omega)).trans (hf rn)
  | modinv rd ra rn =>
    cases h : modInv? (s.reg ra) (s.reg rn) with
    | none => exact .inr ⟨.invUndefined, by decide, by simp [exec, execModinv, raiseError, h]⟩
    | some d =>
      exact .inl ⟨d, by simp [exec, execModinv, finish, h, Instr.dest],
        fun _ hf => (modInv?_spec h).1.trans (hf rn)⟩
  | primetest rd ra =>
    refine .inl ⟨(isPrime (s.reg ra)).toNat, rfl, fun hw _ => ?_⟩
    have h2 : 2 ^ 1 ≤ 2 ^ s.width := Nat.pow_le_pow_right (by omega) (by rw [State.width]; omega)
    have h1 := Bool.toNat_le (isPrime (s.reg ra))
    omega

/-- A completion that answers had a word in flight, and answers what its command answers or the
error of an illegal word (10_state.md R32, 30_encoding.md R87). -/
theorem complete_cases {s t : State} (h : complete s = .next t) :
    s.busy = true ∧ ∃ w, s.inflight = some w ∧
      ((∃ i, decode w = .ok i ∧ exec i s = .next t) ∨
        (isIllegal w = true ∧ t = errorCompletion s .illegalCmd)) := by
  rw [complete] at h
  split_ifs at h with hb
  refine ⟨hb, ?_⟩
  cases hw : s.inflight with
  | none => simp [hw] at h
  | some w =>
    refine ⟨w, rfl, ?_⟩
    simp only [hw] at h
    cases hd : decode w with
    | ok i => exact .inl ⟨i, rfl, by simpa [hd] using h⟩
    | error e =>
      simp only [hd, raiseError, Host.Outcome.next.injEq] at h
      exact .inr ⟨by simp [isIllegal, hd], h.symm⟩

/-- A completion leaves one of the two ends of a command (10_state.md R33, 60_exceptions.md R201). -/
theorem complete_ends {s t : State} (h : complete s = .next t) :
    (∃ r v, t = normalCompletion s r v ∧ (1 ≤ s.words → RegsFit s → v < 2 ^ s.width)) ∨
    (∃ c, c ≠ .none ∧ t = errorCompletion s c) := by
  obtain ⟨_, w, _, ⟨i, _, hi⟩ | ⟨_, rfl⟩⟩ := complete_cases h
  · rcases exec_cases i s with ⟨v, hv, hfit⟩ | ⟨c, hc, hv⟩
    · rw [hv, Host.Outcome.next.injEq] at hi
      exact .inl ⟨_, v, hi.symm, hfit⟩
    · rw [hv, Host.Outcome.next.injEq] at hi
      exact .inr ⟨c, hc, hi.symm⟩
  · exact .inr ⟨_, by simp, rfl⟩

/-- An offset is refused unless it is a multiple of 4 inside the window (20_memory.md R56). -/
theorem offsetRefusal_eq_none_iff (off : Nat) :
    offsetRefusal off = none ↔ off % 4 = 0 ∧ off < 0x1000 := by
  rw [offsetRefusal]
  split_ifs with h1 h2
  · simp_all
  · simp only [Config.windowBytes] at h2
    simp; omega
  · simp only [Config.windowBytes] at h2
    simp; omega

/-- An access that is performed is an aligned 32-bit one inside the window (20_memory.md R56). -/
theorem transact_cases {op : HostOp} {s t : State} (h : transact op s = .next t) :
    (∃ off, op = .read off ∧ off % 4 = 0 ∧ off < 0x1000 ∧ t = hostRead s off) ∨
    (∃ off v, op = .write off v ∧ off % 4 = 0 ∧ off < 0x1000 ∧ t = hostWrite s off v) := by
  cases op with
  | read off =>
    cases ho : offsetRefusal off with
    | some r => simp [transact, ho] at h
    | none =>
      obtain ⟨h1, h2⟩ := (offsetRefusal_eq_none_iff off).mp ho
      simp only [transact, ho, Host.Outcome.next.injEq] at h
      exact .inl ⟨off, rfl, h1, h2, h.symm⟩
  | write off v =>
    cases ho : offsetRefusal off with
    | some r => simp [transact, ho] at h
    | none =>
      obtain ⟨h1, h2⟩ := (offsetRefusal_eq_none_iff off).mp ho
      simp only [transact, ho, Host.Outcome.next.injEq] at h
      exact .inr ⟨off, v, rfl, h1, h2, h.symm⟩
  | otherWidth w off => simp [transact] at h

/-- Every effect a host write can have (20_memory.md R53, R58). -/
theorem hostWrite_cases (s : State) (off : Nat) (v : Word) :
    hostWrite s off v = s ∨
    (s.busy = false ∧ hostWrite s off v = accept s v) ∨
    (s.busy = true ∧ hostWrite s off v = overrun s) ∨
    (off = Config.statusOff ∧ hostWrite s off v = writeStatus s v) ∨
    hostWrite s off v = writeCtrl s v ∨
    (s.busy = false ∧ ∃ r k, k < s.words ∧
      hostWrite s off v = s.setReg r (setRegWord (s.reg r) k v)) := by
  rw [hostWrite]
  cases ht : targetOf s.words off with
  | cmd => cases hb : s.busy <;> simp [writeCmd, hb]
  | status =>
    right; right; right; left
    refine ⟨?_, rfl⟩
    simp only [targetOf] at ht
    split_ifs at ht
    assumption
  | ctrl => simp
  | param => simp
  | operand r k =>
    cases hb : s.busy with
    | true => simp [writeOperand, hb]
    | false =>
      right; right; right; right; right
      exact ⟨rfl, r, k, (operand_of_targetOf ht).1, by simp [writeOperand, hb]⟩
  | reserved => simp

/-- What one step is, by the head of the schedule. -/
theorem step_cases {s t : State} (h : step s = .next t) :
    (∃ op rest, s.schedule = .host op :: rest ∧ transact op { s with schedule := rest } = .next t) ∨
    (∃ rest, s.schedule = .complete :: rest ∧ complete { s with schedule := rest } = .next t) ∨
    (∃ rest, s.schedule = .reset :: rest ∧ t = applyReset { s with schedule := rest }) ∨
    (s.schedule = [] ∧ s.busy = true ∧ complete s = .next t) ∨
    (s.schedule = [] ∧ s.busy = false ∧ t = s) := by
  rw [step, advance] at h
  cases hs : s.schedule with
  | nil =>
    simp only [hs] at h
    split_ifs at h with hb
    · simp [hb, h]
    · simp only [Host.Outcome.next.injEq] at h
      simp_all
  | cons e rest =>
    simp only [hs, perform] at h
    cases e with
    | host op => exact .inl ⟨op, rest, rfl, h⟩
    | complete => exact .inr (.inl ⟨rest, rfl, h⟩)
    | reset => exact .inr (.inr (.inl ⟨rest, rfl, by simpa using h.symm⟩))

end Sys2Proof.Machine
end

