-- ==== Sys2Proof/Laws/HostProc.lean ====
section
/-! SUPPORT. What the building blocks of the host procedures do, one lemma each. -/

namespace Sys2Proof.Machine

/-- A procedure whose precondition holds is the procedure itself. -/
theorem requiring_of_holds {α : Type} {ok : State → Bool} {p : Proc (Except HostError α)} {s : State}
    (h : ok s = true) : requiring ok p s = p s := by simp [requiring, h]

/-- A procedure whose precondition fails answers so and leaves the state as it was. -/
theorem requiring_of_fails {α : Type} {ok : State → Bool} {p : Proc (Except HostError α)} {s : State}
    (h : ok s = false) : requiring ok p s = .next (.error .outsideDomain, s) := by
  simp [requiring, h, answer]

theorem loadable_iff {values : List Nat} {s : State} :
    loadable values s = true ↔ ∀ v ∈ values, v < 2 ^ s.width := by simp [loadable]

theorem validDraw_iff {bits c : Nat} : validDraw bits c = true ↔ DrawOk bits c := by
  simp [validDraw, DrawOk, and_assoc]

/-- A draw is below `2 ^ bits`. -/
theorem DrawOk_lt {bits c : Nat} (h : DrawOk bits c) : c < 2 ^ bits := by
  have := Nat.two_pow_pos bits
  have := h.2.2
  omega

/-- A number R180 does not admit as a draw is passed over. -/
theorem samplePrime_cons_of_not_draw {latency : State → Nat} {bits : Nat} {wanted : Nat → Bool}
    {c : Nat} (h : ¬ DrawOk bits c) (rest : List Nat) :
    samplePrime latency bits wanted (c :: rest) = samplePrime latency bits wanted rest := by
  rw [samplePrime, if_neg (mt validDraw_iff.mp h)]

/-- A word write at an aligned offset of the window is the port's write. -/
theorem writeWord_eq (s : State) {off : Nat} (v : Word) (h : off % 4 = 0) (h' : off < 0x1000) :
    writeWord off v s = .next ((), hostWrite s off v) := by
  rw [writeWord, onBlock, transact, (offsetRefusal_eq_none_iff off).mpr ⟨h, h'⟩]

/-- A word read at an aligned offset of the window answers the port's value and is recorded. -/
theorem readWord_eq (s : State) {off : Nat} (h : off % 4 = 0) (h' : off < 0x1000) :
    readWord off s = .next (readValue s off, hostRead s off) := by
  rw [readWord, andThen, onBlock, transact, (offsetRefusal_eq_none_iff off).mpr ⟨h, h'⟩]
  rfl

/-- A number that is a Unicode scalar value gives its own character; no other number is spoken of. -/
theorem charOfCode_of_valid {code : Nat} (h : code.isValidChar) :
    charOfCode code = Char.ofNat code := if_pos h

@[simp] theorem charOfCode_toNat (c : Char) : charOfCode c.toNat = c :=
  (charOfCode_of_valid (show c.toNat.isValidChar from c.valid)).trans c.ofNat_toNat

end Sys2Proof.Machine
end

