-- ==== Sys2Proof/Laws/PerInstr.lean ====
section
/-! SUPPORT. Statements about every instruction as syntax, one lemma a constructor. -/

namespace Sys2Proof.Laws.FieldsPlaced

/-- The encoding of a command is a legal-looking word: its opcode byte is the table's, its low byte is
zero, and its destination stands in bits 23:20 (30_encoding.md R81, R82, R84). -/
def Statement (i : Instr) : Prop :=
  bitField (encode i) 24 8 ∈ [1, 2, 3, 4, 5, 6] ∧ bitField (encode i) 0 8 = 0 ∧
    regField (encode i) 20 = i.dest

theorem mulmod (rd ra rb rn : Reg) : Statement (.mulmod rd ra rb rn) := by
  refine ⟨?_, bitField_packWord_z (by omega) .., regField_packWord_rd (by omega) ..⟩
  rw [encode, bitField_packWord_op (by omega)]; simp

theorem montmul (rd ra rb rn : Reg) : Statement (.montmul rd ra rb rn) := by
  refine ⟨?_, bitField_packWord_z (by omega) .., regField_packWord_rd (by omega) ..⟩
  rw [encode, bitField_packWord_op (by omega)]; simp

theorem modexp (rd ra rb rn : Reg) : Statement (.modexp rd ra rb rn) := by
  refine ⟨?_, bitField_packWord_z (by omega) .., regField_packWord_rd (by omega) ..⟩
  rw [encode, bitField_packWord_op (by omega)]; simp

theorem modexpc (rd ra rb rn : Reg) : Statement (.modexpc rd ra rb rn) := by
  refine ⟨?_, bitField_packWord_z (by omega) .., regField_packWord_rd (by omega) ..⟩
  rw [encode, bitField_packWord_op (by omega)]; simp

theorem modinv (rd ra rn : Reg) : Statement (.modinv rd ra rn) := by
  refine ⟨?_, bitField_packWord_z (by omega) .., regField_packWord_rd (by omega) ..⟩
  rw [encode, bitField_packWord_op (by omega)]; simp

theorem primetest (rd ra : Reg) : Statement (.primetest rd ra) := by
  refine ⟨?_, bitField_packWord_z (by omega) .., regField_packWord_rd (by omega) ..⟩
  rw [encode, bitField_packWord_op (by omega)]; simp

end Sys2Proof.Laws.FieldsPlaced
end

