-- ==== Sys2Proof/Tests/Slice0.lean ====
section
/-! SUPPORT. Small tests whose expected results are the spec's own (95_test_vectors.md, by the vector's
name), and for every obligation with hypotheses a witness that meets them. -/

namespace Sys2Proof.Tests

open Sys2Proof Sys2Proof.Machine

/-! ### Words -/

/-- The smoke test of the well-formedness table: R85's six rows cover the six legal words X1 to X6. -/
theorem test_legal_words :
    [0x01311200#32, 0x02311200, 0x03301200, 0x04301200, 0x05310200, 0x06100000].map legalWord =
      [true, true, true, true, true, true] := by decide

/-- An ill-formed word for each check of R85 and R87 is refused: X8, X9, X10, X11, X12, X13, X14. -/
theorem test_illegal_words :
    [0x00000000#32, 0x07000000, 0xFFFFFFFF, 0x01311201, 0x05311200, 0x06100100, 0x06101000].map
      legalWord = [false, false, false, false, false, false, false] := by decide

/-- The decoder refuses the same words, each under its own name. -/
theorem test_illegal_names :
    decode 0x00000000 = .error .reservedOpcode ∧ decode 0x07000000 = .error .reservedOpcode ∧
    decode 0xFFFFFFFF = .error .nonzeroZ ∧ decode 0x01311201 = .error .nonzeroZ ∧
    decode 0x05311200 = .error .modinvNonzeroRb ∧
    decode 0x06100100 = .error .primetestNonzeroRbRn ∧
    decode 0x06101000 = .error .primetestNonzeroRbRn ∧
    decodeBytes [0, 0, 0x10] = .error .truncated := by decide

/-- X1 with its fields written out from R81 and R82: op, rd = 3, ra = 1, rb = 1, rn = 2, z. -/
theorem test_decode_mulmod :
    decode 0b00000001_0011_0001_0001_0010_00000000 = .ok (.mulmod 3 1 1 2) := by decide

/-- X2. -/
theorem test_decode_montmul :
    decode 0b00000010_0011_0001_0001_0010_00000000 = .ok (.montmul 3 1 1 2) := by decide

/-- X3. -/
theorem test_decode_modexp :
    decode 0b00000011_0011_0000_0001_0010_00000000 = .ok (.modexp 3 0 1 2) := by decide

/-- X4. -/
theorem test_decode_modexpc :
    decode 0b00000100_0011_0000_0001_0010_00000000 = .ok (.modexpc 3 0 1 2) := by decide

/-- X5: format T has no rb. -/
theorem test_decode_modinv :
    decode 0b00000101_0011_0001_0000_0010_00000000 = .ok (.modinv 3 1 2) := by decide

/-- X6: format D has neither rb nor rn. -/
theorem test_decode_primetest :
    decode 0b00000110_0001_0000_0000_0000_00000000 = .ok (.primetest 1 0) := by decide

/-- X1 on a byte-addressed bus: the byte at the lowest address is bits 7:0 (R55 (b)). -/
theorem test_decode_bytes :
    decodeBytes [0x00, 0x12, 0x31, 0x01, 0xAA] = .ok (.mulmod 3 1 1 2, [0xAA]) := by decide

/-- The words of program P1, from their assembly. -/
theorem test_encode :
    encode (.modinv 3 1 2) = 0x05310200 ∧ encode (.modexpc 4 0 1 2) = 0x04401200 ∧
    encode (.modexp 5 4 3 2) = 0x03543200 := by decide

/-! ### Values -/

/-- M1, M7 (operands not below the modulus), M10 (a product of 128 bits), M13. -/
theorem test_mulmod :
    mulmodOf 2 65 65 3233 = .ok 992 ∧ mulmodOf 2 4000 5000 3233 = .ok 662 ∧
    mulmodOf 2 (2 ^ 64 - 1) (2 ^ 64 - 1) (2 ^ 64 - 59) = .ok 3364 ∧
    mulmodOf 2 5 7 0 = .error .modZero := by decide +kernel

/-- M15: all four fields one register. -/
theorem test_mulmod_one_register :
    (holding 2 0 9 0).reg 1 = 9 ∧
      exec (.mulmod 1 1 1 1) (holding 2 0 9 0) = .next (afterNormal (holding 2 0 9 0) 1 0) :=
  ⟨by decide, rfl⟩

/-- T1, T12, T14. -/
theorem test_montmul :
    montmulOf 2 65 65 3233 = .ok 794 ∧ montmulOf 2 2 3 7 = .ok 3 ∧
    montmulOf 2 (2 ^ 64 - 1) (2 ^ 64 - 1) (2 ^ 64 - 59) = .ok 14694863923124558077 := by
  decide +kernel

/-- T16, T17, T18: zero before even. -/
theorem test_montmul_errors :
    montmulOf 2 5 7 0 = .error .modZero ∧ montmulOf 2 5 7 3232 = .error .modEven ∧
    montmulOf 2 0 0 2 = .error .modEven := by decide +kernel

/-- E1, E5, E6, E10, E18. -/
theorem test_modexp :
    modexpOf 2 2790 2753 3233 = .ok 65 ∧ modexpOf 2 0 0 7 = .ok 1 ∧ modexpOf 2 0 0 1 = .ok 0 ∧
    modexpOf 2 4000 17 3233 = .ok 250 ∧ modexpOf 2 5 3 0 = .error .modZero := by decide +kernel

/-- E16: all 64 exponent bits set. -/
theorem test_modexp_full_exponent :
    modexpOf 2 3 (2 ^ 64 - 1) (2 ^ 64 - 59) = .ok 17268082312041408519 := by decide +kernel

/-- E20, E23. -/
theorem test_modexpc :
    modexpcOf 2 65 17 3233 = .ok 2790 ∧ modexpcOf 2 3232 17 3233 = .ok 3232 := by decide +kernel

/-- E24, E25 (the bound is strict), E26 (never MOD_ZERO). -/
theorem test_modexpc_errors :
    modexpcOf 2 4000 17 3233 = .error .msgTooLarge ∧
    modexpcOf 2 3233 17 3233 = .error .msgTooLarge ∧
    modexpcOf 2 0 5 0 = .error .msgTooLarge := by decide +kernel

/-- I1, I4, I9, I14. -/
theorem test_modinv :
    modinvOf 2 17 3120 = .ok 2753 ∧ modinvOf 2 65537 3120 = .ok 2753 ∧ modinvOf 2 0 1 = .ok 0 ∧
    modinvOf 2 (2 ^ 64 - 1) (2 ^ 64 - 59) = .ok 1590236558078409617 := by decide +kernel

/-- I15, I19, I20 (modulus 0 although the gcd is 1). -/
theorem test_modinv_errors :
    modinvOf 2 4 8 = .error .invUndefined ∧ modinvOf 2 0 7 = .error .invUndefined ∧
    modinvOf 2 1 0 = .error .invUndefined := by decide +kernel

/-- Q2, Q3, Q4, Q6 (the bound is inclusive), Q11. -/
theorem test_primetest :
    primetestOf 2 1 = .ok 0 ∧ primetestOf 2 2 = .ok 1 ∧ primetestOf 2 3 = .ok 1 ∧
    primetestOf 2 9 = .ok 0 ∧ primetestOf 2 97 = .ok 1 := by decide +kernel

/-- Q14, Q22. -/
theorem test_primetest_composite :
    primetestOf 2 3233 = .ok 0 ∧ primetestOf 2 10403 = .ok 0 ∧ primetestOf 2 (2 ^ 64 - 1) = .ok 0 := by
  decide +kernel

/-! ### Steps -/

/-- 97 in x0, everything else as after reset. -/
def testing97 : State := holding 2 97 0 0

/-- `testing97` with PRIMETEST x1, x0 in flight, as H8 has it. -/
def testing97Busy : State := afterAccept testing97 0x06100000

/-- x0 = 65, x1 = 17, x2 = 3233: the source's encryption. -/
def encrypting : State := holding 2 65 17 3233

/-- `encrypting` with MODEXPC x3, x0, x1, x2 in flight. -/
def encryptingBusy : State := afterAccept encrypting 0x04301200

/-- `encrypting` with an illegal word in flight (X8). -/
def illegalBusy : State := afterAccept encrypting 0

/-- H1: the reset values at the port. -/
theorem test_reset_reads :
    [0x000, 0x004, 0x008, 0x00C, 0x100, 0x17C].map (readValue State.reset) =
      [0, 0, 0, 0x00001002, 0, 0] := by decide

/-- H3: a high word written, the low word kept. -/
theorem test_operand_write :
    step (beforeWrite 0x104 1 State.reset) =
        .next { State.reset with x := State.reset.x.set 0 4294967296 } ∧
      readValue (holding 2 4294967296 0 0) 0x100 = 0 ∧
      readValue (holding 2 4294967296 0 0) 0x104 = 1 := ⟨rfl, by decide, by decide⟩

/-- H8: BUSY while in flight, DONE and the verdict after completion, CMD reading zero. -/
theorem test_prime_completion :
    readValue testing97Busy 0x004 = 0x01 ∧
      ∃ t, step (before .complete testing97Busy) = .next t ∧ readValue t 0x004 = 0x02 ∧
        readValue t 0x108 = 1 ∧ readValue t 0x000 = 0 :=
  ⟨by decide, _, rfl, by decide, by decide, by decide⟩

/-- H11: a write to an operand while busy is discarded and sets OVR (STATUS 0x09). -/
theorem test_write_while_busy :
    ∃ t, step (beforeWrite 0x100 91 testing97Busy) = .next t ∧ readValue t 0x100 = 97 ∧
      readValue t 0x004 = 0x09 := ⟨_, rfl, by decide, by decide⟩

/-- H15: an illegal word completes with 0x16 and raises the interrupt. -/
theorem test_illegal_completion :
    ∃ t, step (before .complete { illegalBusy with ie := true }) = .next t ∧
      readValue t 0x004 = 0x16 ∧ irq t = true ∧ t.x = illegalBusy.x :=
  ⟨_, rfl, by decide, by decide, rfl⟩

/-- H14: reset with a command in flight. -/
theorem test_reset_while_busy :
    ∃ t, step (before .reset testing97Busy) = .next t ∧ readValue t 0x004 = 0 ∧
      readValue t 0x100 = 0 ∧ readValue t 0x108 = 0 := ⟨_, rfl, by decide, by decide, by decide⟩

/-- H16 and H17: what must be refused. -/
theorem test_refusals :
    step (before .complete State.reset) = .refused .completionNotEnabled ∧
    step (beforeRead 0x002 State.reset) = .refused (.misalignedAccess 0x002) ∧
    step (beforeWrite 0x101 5 State.reset) = .refused (.misalignedAccess 0x101) ∧
    step (before (.host (.otherWidth .byte 0x100)) State.reset) =
      .refused (.notAWordAccess .byte 0x100) := ⟨rfl, rfl, rfl, rfl⟩

/-! ### Witnesses: every obligation's hypotheses can be met -/

/-- The least and the greatest build. -/
theorem witness_ResetLeavesSpecValues :
    Config.minWords ≤ 1 ∧ 1 ≤ Config.maxWords ∧ Config.minWords ≤ 60 ∧ 60 ≤ Config.maxWords := by
  decide

theorem witness_ResetDiscardsTheCommand :
    testing97Busy.busy = true ∧ testing97Busy.inflight = some 0x06100000 := by decide

/-- The least and the greatest build. -/
theorem witness_ResetMeetsInvariant :
    Config.minWords ≤ 1 ∧ 60 ≤ Config.maxWords := by decide

/-- A completion, a host write, a reset, and the completion still owed. -/
theorem witness_StepKeepsInvariant :
    Inv (before .complete encryptingBusy) ∧ Inv (beforeWrite 0x17C 7 encrypting) ∧
    Inv (before .reset encryptingBusy) ∧ Inv encryptingBusy ∧
    (∃ t, step (before .complete encryptingBusy) = .next t) ∧
    (∃ t, step (beforeWrite 0x17C 7 encrypting) = .next t) ∧
    (∃ t, step (before .reset encryptingBusy) = .next t) ∧ (∃ t, step encryptingBusy = .next t) :=
  ⟨by decide, by decide, by decide, by decide, ⟨_, rfl⟩, ⟨_, rfl⟩, ⟨_, rfl⟩, ⟨_, rfl⟩⟩

/-- X7 and X6. -/
theorem witness_EncodeOfDecode :
    decode 0x01FFFF00 = .ok (.mulmod 15 15 15 15) ∧ decode 0x06100000 = .ok (.primetest 1 0) := by
  decide

theorem witness_DecodeAgreesWithMaskTable :
    ⟨"MODINV", 0xFF00F0FF#32, 0x05000000#32⟩ ∈ opcodeTable ∧
      (0x05310200#32) &&& 0xFF00F0FF = 0x05000000 := by decide

theorem witness_StepRunsDecodedCommand :
    encryptingBusy.busy = true ∧ encryptingBusy.inflight = some 0x04301200 ∧
      decode 0x04301200 = .ok (.modexpc 3 0 1 2) ∧ encryptingBusy.schedule = [] := by decide

theorem witness_PlacedWordRunsNext :
    decodeTableWord 32 0x01000000 = some (.mulmod 0 0 0 0) ∧
      decodeTableWord 32 0x06FF0000 = some (.primetest 15 15) := by decide

theorem witness_IllegalWordCompletesWithError :
    illegalBusy.busy = true ∧ illegalBusy.inflight = some 0 ∧ isIllegal 0 = true := by decide

theorem witness_IdleBlockDoesNothing :
    encrypting.busy = false ∧ encrypting.schedule = [] := by decide

/-- A legal word in flight, and an illegal one. -/
theorem witness_AcceptedCommandCompletes :
    encryptingBusy.busy = true ∧ LatchOk encryptingBusy ∧ illegalBusy.busy = true ∧
      LatchOk illegalBusy := by decide

/-- A discarded operand write, a discarded command, and a read. -/
theorem witness_HostCannotDisturbACommand :
    encryptingBusy.busy = true ∧
    (∃ t, step (before (.host (.write 0x100 91)) encryptingBusy) = .next t) ∧
    (∃ t, step (before (.host (.write 0x000 0x06200000)) encryptingBusy) = .next t) ∧
    (∃ t, step (before (.host (.read 0x004)) encryptingBusy) = .next t) :=
  ⟨by decide, ⟨_, rfl⟩, ⟨_, rfl⟩, ⟨_, rfl⟩⟩

theorem witness_NormalCompletionWritesOneRegister :
    Inv encryptingBusy ∧
      ∃ t, step (before .complete encryptingBusy) = .next t ∧ t.err = false :=
  ⟨by decide, _, rfl, by decide⟩

/-- An illegal word, and a message not below its modulus. -/
theorem witness_ErrorCompletionWritesStatusOnly :
    (∃ t, step (before .complete illegalBusy) = .next t ∧ t.err = true) ∧
    (∃ t, step (before .complete (afterAccept (holding 2 4000 17 3233) 0x04301200)) = .next t ∧
      t.err = true) := ⟨⟨_, rfl, by decide⟩, _, rfl, by decide⟩

/-- All six commands answer a next state; register 15 is no destination, and the last operand word is
outside the words of x3. -/
theorem witness_CommandFrame :
    (∃ t, exec (.mulmod 3 0 1 2) encrypting = .next t) ∧
    (∃ t, exec (.montmul 3 0 1 2) encrypting = .next t) ∧
    (∃ t, exec (.modexp 3 0 1 2) encrypting = .next t) ∧
    (∃ t, exec (.modexpc 3 0 1 2) encrypting = .next t) ∧
    (∃ t, exec (.modinv 3 1 2) encrypting = .next t) ∧
    (∃ t, exec (.primetest 3 1) encrypting = .next t) ∧
    15 ≠ (Instr.modinv 3 1 2).dest ∧ 0x17C ≠ Config.statusOff ∧
    ¬ (operandOffset 2 3 0 ≤ 0x17C ∧ 0x17C < operandOffset 2 3 2) :=
  ⟨⟨_, rfl⟩, ⟨_, rfl⟩, ⟨_, rfl⟩, ⟨_, rfl⟩, ⟨_, rfl⟩, ⟨_, rfl⟩, by decide, by decide, by decide⟩

/-- `encrypting` with another register, the enable and the overrun bit set. -/
def encryptingElsewhere : State :=
  { encrypting with x := encrypting.x.set 15 7, ie := true, ovr := true }

/-- Two states that agree on the sources and on little else. -/
theorem witness_ResultDependsOnSourcesOnly :
    encrypting.words = encryptingElsewhere.words ∧ encrypting ≠ encryptingElsewhere ∧
    (∀ r ∈ (Instr.modexpc 3 0 1 2).sources, encrypting.reg r = encryptingElsewhere.reg r) ∧
    ∃ t t', exec (.modexpc 3 0 1 2) encrypting = .next t ∧
      exec (.modexpc 3 0 1 2) encryptingElsewhere = .next t' ∧ t.err = false :=
  ⟨by decide, by decide, by decide, _, _, rfl, rfl, by decide⟩

theorem witness_ErrorCodeOfEachCommand :
    illegalBusy.busy = true ∧ illegalBusy.inflight = some 0 ∧
    (∃ t, step (before .complete illegalBusy) = .next t) ∧
    encryptingBusy.busy = true ∧ encryptingBusy.inflight = some 0x04301200 ∧
    (∃ t, step (before .complete encryptingBusy) = .next t) :=
  ⟨by decide, by decide, ⟨_, rfl⟩, by decide, by decide, _, rfl⟩

/-- M13, modulus 1, and the worked example. -/
theorem witness_MulmodResult :
    (holding 2 5 7 0).reg 2 = 0 ∧ (holding 2 7 8 1).reg 2 ≠ 0 ∧
    (holding 2 0 65 3233).reg 1 = 65 ∧ (holding 2 0 65 3233).reg 2 = 3233 := by decide

theorem witness_MulmodLaws : 1 ≤ 1 ∧ 1 ≤ 3233 := by decide

/-- T16, T18, T11 and T1: the result 794 meets the uniqueness clause's premises. -/
theorem witness_MontmulResult :
    (holding 2 5 7 0).reg 2 = 0 ∧
    (holding 2 0 0 2).reg 2 ≠ 0 ∧ (holding 2 0 0 2).reg 2 % 2 = 0 ∧
    (holding 2 5 7 1).reg 2 % 2 = 1 ∧ (holding 2 65 65 3233).reg 2 % 2 = 1 ∧
    794 < (holding 2 65 65 3233).reg 2 ∧
    794 * 2 ^ (holding 2 65 65 3233).width % (holding 2 65 65 3233).reg 2 =
      (holding 2 65 65 3233).reg 0 * (holding 2 65 65 3233).reg 1 %
        (holding 2 65 65 3233).reg 2 ∧
    (holding 2 0 65 3233).words = 2 ∧ (holding 2 0 65 3233).reg 1 = 65 ∧
    (holding 2 0 65 3233).reg 2 = 3233 := by decide

theorem witness_MontgomeryRelations : 1 % 2 = 1 ∧ 3233 % 2 = 1 := by decide

/-- The least modulus and the greatest of the reference width. -/
theorem witness_RedcComputesMontmul :
    (1 % 2 = 1 ∧ 1 < 2 ^ (32 * 2) ∧ 0 < 1) ∧
    ((2 ^ 64 - 1) % 2 = 1 ∧ 2 ^ 64 - 1 < 2 ^ (32 * 2) ∧ 2 ^ 64 - 2 < 2 ^ 64 - 1) := by decide

/-- E18, E9 and S3. -/
theorem witness_ModexpResult :
    (holding 2 5 3 0).reg 2 = 0 ∧ (holding 2 10 3 1).reg 2 ≠ 0 ∧
    (holding 2 2790 2753 3233).reg 0 = 2790 ∧ (holding 2 2790 2753 3233).reg 1 = 2753 ∧
    (holding 2 2790 2753 3233).reg 2 = 3233 := by decide

/-- The largest exponent sum of the reference width. -/
theorem witness_ModexpLaws : 1 ≤ 1 ∧ 2 ^ 63 + (2 ^ 63 - 1) < 2 ^ (32 * 2) := by decide

/-- E6, E27 at modulus 1; modulus 2 with a base below it and one not. -/
theorem witness_ExponentZeroGivesOne :
    ((holding 2 0 0 1).reg 1 = 0 ∧ (holding 2 0 0 1).reg 2 = 1 ∧ (holding 2 0 0 1).reg 0 < 1) ∧
    ((holding 2 1 0 2).reg 1 = 0 ∧ (holding 2 1 0 2).reg 2 ≥ 2 ∧
      (holding 2 1 0 2).reg 0 < (holding 2 1 0 2).reg 2) := by decide

/-- E25 and E23 (the bound's two sides), S2 and S5. -/
theorem witness_ModexpcResult :
    (holding 2 3233 17 3233).reg 0 ≥ (holding 2 3233 17 3233).reg 2 ∧
    (holding 2 3232 17 3233).reg 0 < (holding 2 3232 17 3233).reg 2 ∧
    encrypting.reg 1 = 17 ∧ encrypting.reg 2 = 3233 ∧ encrypting.reg 0 = 65 ∧
    (holding 2 4000 17 3233).reg 0 = 4000 ∧ (holding 2 4000 17 3233).ovr = false := by decide

/-- The source's key pair, the private exponent in x3. -/
theorem witness_RsaRoundTrip :
    Nat.Prime 61 ∧ Nat.Prime 53 ∧ 61 ≠ 53 ∧
    (encrypting.setReg 3 2753).reg 2 = 61 * 53 ∧
    (encrypting.setReg 3 2753).reg 1 * (encrypting.setReg 3 2753).reg 3 % ((61 - 1) * (53 - 1)) =
      1 % ((61 - 1) * (53 - 1)) ∧
    (encrypting.setReg 3 2753).reg 0 < (encrypting.setReg 3 2753).reg 2 ∧
    (4 : Reg) ≠ 3 ∧ (4 : Reg) ≠ 2 :=
  ⟨by norm_num, by norm_num, by decide, by decide, by decide, by decide, by decide, by decide⟩

/-- I20, I15 and I1, and the worked examples' registers. -/
theorem witness_ModinvResult :
    (holding 2 0 1 0).reg 2 = 0 ∧ Nat.gcd ((holding 2 0 4 8).reg 1) ((holding 2 0 4 8).reg 2) ≠ 1 ∧
    (holding 2 0 17 3120).reg 2 ≠ 0 ∧
    Nat.gcd ((holding 2 0 17 3120).reg 1) ((holding 2 0 17 3120).reg 2) = 1 ∧
    (holding 2 0 17 3120).reg 1 = 17 ∧ (holding 2 0 17 3120).reg 2 = 3120 ∧
    (holding 2 0 4 8).reg 1 = 4 ∧ (holding 2 0 4 8).reg 2 = 8 ∧ (holding 2 0 4 8).ovr = false := by
  decide +kernel

theorem witness_ModinvCornerCases : 2 ≥ 2 ∧ 1 ≥ 1 ∧ 1 ≥ 1 ∧ 65537 ≥ 3120 := by decide

theorem witness_ModinvTestsAndInverts : 1 ≤ 1 ∧ modinvOf 2 17 3120 = .ok 2753 := by
  decide +kernel

/-- Q2, Q3, Q5, Q6 (the divisor is the root itself) and Q4. -/
theorem witness_PrimetestResult :
    (holding 2 1 0 0).reg 0 < 2 ∧ (holding 2 2 0 0).reg 0 = 2 ∧
    ((holding 2 4 0 0).reg 0 > 2 ∧ (holding 2 4 0 0).reg 0 % 2 = 0) ∧
    ((holding 2 9 0 0).reg 0 > 2 ∧ (holding 2 9 0 0).reg 0 % 2 = 1 ∧
      ∃ i, i % 2 = 1 ∧ 3 ≤ i ∧ i ≤ Nat.sqrt ((holding 2 9 0 0).reg 0) ∧
        (holding 2 9 0 0).reg 0 % i = 0) ∧
    ((holding 2 3 0 0).reg 0 > 2 ∧ (holding 2 3 0 0).reg 0 % 2 = 1 ∧
      ¬ ∃ i, i % 2 = 1 ∧ 3 ≤ i ∧ i ≤ Nat.sqrt ((holding 2 3 0 0).reg 0) ∧
        (holding 2 3 0 0).reg 0 % i = 0) ∧
    testing97.reg 0 = 97 ∧ (holding 2 91 0 0).reg 0 = 91 := by
  have h9 : 3 ≤ Nat.sqrt 9 := Nat.le_sqrt.mpr (by decide)
  have h3 : Nat.sqrt 3 < 3 := Nat.sqrt_lt.mpr (by decide)
  exact ⟨by decide, by decide, by decide, ⟨by decide, by decide, 3, by decide, by decide, h9, by decide⟩,
    ⟨by decide, by decide, fun ⟨i, _, h, h', _⟩ => absurd (h.trans h') (Nat.not_le.mpr h3)⟩, by decide,
    by decide⟩

theorem witness_PrimetestIsPrimality :
    Nat.Prime (testing97.reg 0) ∧ ¬ Nat.Prime ((holding 2 91 0 0).reg 0) :=
  ⟨(show Nat.Prime 97 by norm_num), (show ¬ Nat.Prime 91 by norm_num)⟩

theorem witness_AcceptanceOfAnyWord : encrypting.busy = false := by decide

/-- The first and the last operand word and CMD; STATUS, the offsets on either side of the operand
window and the last of the window; a step that keeps OVR. -/
theorem witness_DiscardedWrites :
    (WidthOk encryptingBusy ∧ Inv encryptingBusy ∧ encryptingBusy.busy = true) ∧
    (0x100 % 4 = 0 ∧ 0x100 < 0x100 + 64 * encryptingBusy.words ∧
      0x17C % 4 = 0 ∧ 0x17C < 0x100 + 64 * encryptingBusy.words) ∧
    (∀ off ∈ [0x004, 0x008, 0x00C, 0x010, 0x0FC, 0x180, 0xFFC], off % 4 = 0 ∧ off < 0x1000 ∧
      ¬ (off = 0x000 ∨ 0x100 ≤ off ∧ off < 0x100 + 64 * encryptingBusy.words)) ∧
    0x000 ≠ 0x004 ∧
    (∃ t, step (before .complete encryptingBusy) = .next t) ∧ encrypting.busy = false ∧
    (∃ t, step (beforeRead 0x000 { encryptingBusy with ovr := true }) = .next t) ∧
    (beforeRead 0x000 { encryptingBusy with ovr := true }).ovr = true :=
  ⟨by decide, by decide, by decide, by decide, ⟨_, rfl⟩, by decide, ⟨_, rfl⟩, by decide⟩

/-- Bit 1 on an idle block; bit 1 clear; bit 1 on a busy block. -/
theorem witness_StatusWriteClears :
    ((0x2#32).getLsbD 1 = true ∧ encrypting.busy = false) ∧ (0x8#32).getLsbD 1 = false ∧
      encryptingBusy.busy = true := by decide

theorem witness_CtrlWriteStoresEnable : 1 ≤ 1 ∧ 1 ≤ 31 := by decide

theorem witness_ParamIsConstant :
    WidthOk (State.resetFor 1) ∧ WidthOk (State.resetFor 60) ∧ WidthOk State.reset ∧
      State.reset.words = 2 ∧ (∃ t, step State.reset = .next t) :=
  ⟨by decide, by decide, by decide, by decide, _, rfl⟩

theorem witness_ReadValuesAreRecorded :
    0x000 % 4 = 0 ∧ 0x000 < 0x1000 ∧ 0xFFC % 4 = 0 ∧ 0xFFC < 0x1000 := by decide

/-- Every clause's offsets: the control registers, the first word of x0 and the last of x15, the
reserved ranges' ends; in the greatest build the last operand word ends the window. -/
theorem witness_HostReadTable :
    WidthOk encrypting ∧ WidthOk (State.resetFor 60) ∧
    (∀ off ∈ [0x000, 0x004, 0x008, 0x00C, 0x010, 0x0FC, 0x100, 0x17C, 0x180, 0xFFC],
      off % 4 = 0 ∧ off < 0x1000) ∧
    (1 < encrypting.words ∧ 0x17C = 0x100 + (15 : Reg).val * (encrypting.width / 8) + 4 * 1) ∧
    (59 < (State.resetFor 60).words ∧
      0xFFC = 0x100 + (15 : Reg).val * ((State.resetFor 60).width / 8) + 4 * 59) ∧
    (0x010 ≤ 0x0FC ∧ 0x0FC < 0x100) ∧ 0x100 + 2 * encrypting.width ≤ 0x180 := by decide

/-- The same offsets, on an idle and on a busy block, and another word of the register written. -/
theorem witness_HostWriteTable :
    WidthOk encrypting ∧ WidthOk encryptingBusy ∧ encrypting.busy = false ∧
      encryptingBusy.busy = true ∧
    (1 < encrypting.words ∧ 0x17C % 4 = 0 ∧ 0x17C < 0x1000 ∧
      0x17C = 0x100 + (15 : Reg).val * (encrypting.width / 8) + 4 * 1) ∧
    (1 < encryptingBusy.words ∧
      0x17C = 0x100 + (15 : Reg).val * (encryptingBusy.width / 8) + 4 * 1) ∧ 0 ≠ 1 ∧
    0x100 + 2 * encrypting.width ≤ 0x180 := by decide

theorem witness_RegisterIsItsWords : Inv encrypting ∧ Inv (State.resetFor 60) := by decide +kernel

theorem witness_OtherAccessesAreRefused :
    0x002 % 4 ≠ 0 ∧ 0x101 % 4 ≠ 0 ∧ 0x1000 % 4 = 0 ∧ 0x1000 ≥ 0x1000 := by decide

/-- Both ends of both reserved ranges of the reference build. -/
theorem witness_ReservedOffsetsAreInert :
    ∀ off ∈ [0x010, 0x0FC, 0x180, 0xFFC], off % 4 = 0 ∧ off < 0x1000 ∧
      ((0x010 ≤ off ∧ off ≤ 0x0FF) ∨ 0x100 + 2 * encrypting.width ≤ off) := by decide

theorem witness_InterruptLine :
    (∃ t, step (before .complete encryptingBusy) = .next t) ∧ encrypting.busy = false ∧
    (StatusOk { encrypting with done := true } ∧ (0x2#32).getLsbD 1 = true) ∧
    (encryptingBusy.busy = true ∧ 0x100 ≠ 0x008 ∧ StatusOk encryptingBusy ∧
      ∃ t, step (beforeWrite 0x100 91 encryptingBusy) = .next t) :=
  ⟨⟨_, rfl⟩, by decide, by decide, by decide, by decide, by decide, _, rfl⟩

theorem witness_LoadThenReadBack :
    Inv encrypting ∧ encrypting.busy = false ∧ 2 ^ 64 - 1 < 2 ^ encrypting.width := by decide

/-- P2's text and its code points (R188). -/
theorem test_text_codec :
    textToIntegers "Hié" = [72, 105, 233] ∧ integersToText [72, 105, 233] = "Hié" := by
  decide +kernel

/-- The answer of a host procedure that did not stop. -/
def answered {α β : Type} : Host.Outcome (Except HostError α × State) β Refusal → Option α
  | .next (.ok a, _) => some a
  | _ => none

theorem next_of_answered {α β : Type} {o : Host.Outcome (Except HostError α × State) β Refusal}
    {a : α} (h : answered o = some a) : ∃ t, o = .next (.ok a, t) := by
  match o, h with
  | .next (.ok _, t), rfl => exact ⟨t, rfl⟩

/-- An even number, a composite, then a prime of 4 bits (13, the greatest); no draw of 4 bits that is
prime; the least bit length, and the width itself. -/
theorem witness_GeneratePrimeFindsFirstPrime :
    Inv State.reset ∧ State.reset.busy = false ∧ 2 ≤ 4 ∧ 4 ≤ State.reset.width ∧
    [2, 15, 13, 11] = [2, 15] ++ 13 :: [11] ∧
    (∀ a ∈ [2, 15], ¬ (DrawOk 4 a ∧ Nat.Prime a)) ∧ DrawOk 4 13 ∧ Nat.Prime 13 ∧
    (2 ≤ 2 ∧ 64 ≤ State.reset.width) ∧
    ∃ t, generatePrime (fun _ => 1) 4 [2, 15, 13, 11] State.reset = .next (.ok (13, [11]), t) := by
  refine ⟨by decide, by decide, by decide, by decide, rfl, ?_, by decide, by norm_num, by decide,
    next_of_answered (by decide +kernel)⟩
  rintro a (_ | ⟨_, _ | ⟨_, _ | _⟩⟩)
  · decide
  · norm_num

/-- R180: what is no draw of `generatePrime(bits)` is never answered, not even a prime of another
length; for `bits = 2` the first draw, 3, returns. -/
theorem test_generatePrime_draws :
    answered (generatePrime (fun _ => 0) 4 [2, 7, 17, 11] State.reset) = some (11, []) ∧
    answered (generatePrime (fun _ => 0) 4 [2, 7, 17, 2 ^ 64 + 3] State.reset) = none ∧
    answered (generatePrime (fun _ => 0) 2 [3, 3] State.reset) = some (3, [3]) := by decide +kernel

/-- Each precondition just missed. -/
theorem witness_PreconditionsAreChecked :
    1 < 2 ∧ State.reset.width < 65 ∧ State.reset.width < 2 * 33 ∧
      2 ^ 64 ≥ 2 ^ State.reset.width := by decide

/-- P2's text: "Hié" under e = 7, n = 143, the last code point too large and skipped. -/
theorem test_encryptCodes :
    answered (encryptCodes (fun _ => 1) 7 143 [72, 105, 233] State.reset) = some [19, 118] := by
  decide +kernel

/-- Program P2's key pair: 11 and 13, the exponent found by the scan. -/
theorem witness_GeneratedKeysAreAKeyPair :
    Inv State.reset ∧ State.reset.busy = false ∧
    ∃ t, generateKeys (fun _ => 1) 4 [11, 11, 13] State.reset =
      .next (.ok ⟨7, 103, 143, 11, 13⟩, t) :=
  ⟨by decide, by decide, next_of_answered (by decide +kernel)⟩

/-- S2's message and S5's. -/
theorem witness_EncryptChecksAndComputes :
    Inv State.reset ∧ State.reset.busy = false ∧ 17 < 2 ^ State.reset.width ∧
      3233 < 2 ^ State.reset.width ∧ 65 < 3233 ∧ 4000 ≥ 3233 := by decide

theorem witness_DecryptComputes :
    Inv State.reset ∧ State.reset.busy = false ∧ 2790 < 2 ^ State.reset.width ∧
      2753 < 2 ^ State.reset.width ∧ 3233 < 2 ^ State.reset.width ∧ 3233 ≠ 0 ∧
      0 < 2 ^ State.reset.width := by decide

theorem witness_TextEncryptionSkipsOversized :
    Inv State.reset ∧ State.reset.busy = false ∧ 7 < 2 ^ State.reset.width ∧
      143 < 2 ^ State.reset.width := by decide

/-- The code points on either side of the surrogates, the least and the greatest. -/
theorem witness_TextCodecRoundTrip :
    ∀ n ∈ [0, 0xD7FF, 0xE000, 0x10FFFF], n < 0xD800 ∨ 0xDFFF < n ∧ n < 0x110000 := by decide

end Sys2Proof.Tests
end

section
/-! PROOFS. The scope family (00_scope.md): every command answers. -/

namespace Sys2Proof.Machine

/-- Settles O21: a command ends in one of its two completions (`exec_cases`), and either of them leaves
the block idle with DONE set; the normal one clears ERR and ECODE, the error one sets both. -/
theorem execAlwaysAnswers : Obligations.ExecAlwaysAnswers := by
  intro i s
  rcases exec_cases i s with ⟨v, hnext, -⟩ | ⟨c, hc, hnext⟩
  · exact ⟨normalCompletion s i.dest v, hnext, by simp⟩
  · exact ⟨errorCompletion s c, hnext, by simp [hc]⟩

end Sys2Proof.Machine
end

section
/-! SUPPORT. Further laws of the model: one event as a step, the port's fixed offsets, the words of
STATUS, CTRL and PARAM as numbers, the STATUS write as one record, and a command on states that agree
on its sources. -/

namespace Sys2Proof.Machine

/-! ### One event as a step -/

/-- The step of a state whose next event is `e` is that event on the state without it. -/
theorem step_before (e : Event) (s : State) : step (before e s) = perform e s := rfl

@[simp] theorem step_before_complete (s : State) : step (before .complete s) = complete s := rfl

@[simp] theorem step_before_reset (s : State) :
    step (before .reset s) = .next (applyReset s) := rfl

/-- A write at an aligned offset of the window is performed (20_memory.md R56). -/
theorem step_beforeWrite (s : State) {off : Nat} (v : Word) (h : off % 4 = 0) (h' : off < 0x1000) :
    step (beforeWrite off v s) = .next (hostWrite s off v) := by
  rw [step_before, perform, transact, (offsetRefusal_eq_none_iff off).mpr ⟨h, h'⟩]

theorem complete_of_decode {s : State} {w : Word} {i : Instr} (hb : s.busy = true)
    (hw : s.inflight = some w) (hd : decode w = .ok i) : complete s = exec i s := by
  simp [complete, hb, hw, hd]

theorem complete_of_idle {s : State} (hb : s.busy = false) :
    complete s = .refused .completionNotEnabled := by
  simp [complete, hb]

theorem step_of_owed {s : State} (hs : s.schedule = []) (hb : s.busy = true) :
    step s = complete s := by
  simp [step, advance, hs, hb]

theorem step_of_idle {s : State} (hs : s.schedule = []) (hb : s.busy = false) :
    step s = .next s := by
  simp [step, advance, hs, hb]

/-- A table word is read as a command exactly if it is no longer than a command and its word decodes
(30_encoding.md R80). -/
theorem decodeTableWord_eq_some_iff (nbits w : Nat) (i : Instr) :
    decodeTableWord nbits w = some i ↔ nbits ≤ 32 ∧ decode (tableWord nbits w) = .ok i := by
  have hbytes := decodeBytes_wordBytes (tableWord nbits w) []
  rw [List.append_nil] at hbytes
  rw [decodeTableWord, hbytes]
  cases decode (tableWord nbits w) <;> simp [Except.map]

/-! ### The port's offsets -/

theorem hostWrite_cmd (s : State) (w : Word) : hostWrite s 0x000 w = writeCmd s w := rfl
theorem hostWrite_status (s : State) (v : Word) : hostWrite s 0x004 v = writeStatus s v := rfl
theorem hostWrite_ctrl (s : State) (v : Word) : hostWrite s 0x008 v = writeCtrl s v := rfl
theorem hostWrite_param (s : State) (v : Word) : hostWrite s 0x00C v = s := rfl

theorem readValue_status (s : State) : readValue s 0x004 = statusWord s := rfl
theorem readValue_ctrl (s : State) : readValue s 0x008 = ctrlWord s := rfl
theorem readValue_param (s : State) : readValue s 0x00C = paramWord s := rfl

/-- Only the offset of STATUS names STATUS (10_state.md R24). -/
theorem targetOf_eq_status {words off : Nat} (h : targetOf words off = .status) :
    off = 0x004 := by
  simp only [targetOf] at h
  split_ifs at h
  assumption

/-- Only the offset of CMD names CMD (10_state.md R24). -/
theorem targetOf_eq_cmd {words off : Nat} (h : targetOf words off = .cmd) : off = 0x000 := by
  simp only [targetOf] at h
  split_ifs at h
  assumption

/-- The offsets of the operand window are those that name a word of an operand register
(20_memory.md R51). -/
theorem targetOf_operand_iff (words off : Nat) :
    (∃ r k, targetOf words off = .operand r k) ↔ 0x100 ≤ off ∧ off < 0x100 + 64 * words := by
  constructor
  · rintro ⟨r, k, h⟩
    rw [targetOf] at h
    split_ifs at h with _ _ _ _ hin
    simp only [Config.operandOff, Config.nreg] at hin
    omega
  · intro h
    have hmap : off ≠ Config.cmdOff ∧ off ≠ Config.statusOff ∧ off ≠ Config.ctrlOff ∧
        off ≠ Config.paramOff ∧ Config.operandOff ≤ off ∧
        off < Config.operandOff + Config.nreg * (4 * words) := by
      simp only [Config.cmdOff, Config.statusOff, Config.ctrlOff, Config.paramOff,
        Config.operandOff, Config.nreg]
      omega
    obtain ⟨hcmd, hstatus, hctrl, hparam, hin⟩ := hmap
    exact ⟨_, _, by rw [targetOf, if_neg hcmd, if_neg hstatus, if_neg hctrl, if_neg hparam,
      if_pos hin]⟩

/-! ### The words of STATUS, CTRL and PARAM -/

theorem codeOf_eq_code (c : ECode) : codeOf c = c.code := by cases c <;> rfl

theorem ECode.code_le (c : ECode) : c.code ≤ 5 := by cases c <;> decide

/-- Each field of STATUS fits its bits (10_state.md R26). -/
theorem statusFields_le (s : State) :
    s.busy.toNat ≤ 1 ∧ s.done.toNat ≤ 1 ∧ s.err.toNat ≤ 1 ∧ s.ovr.toNat ≤ 1 ∧ s.ecode.code ≤ 5 :=
  ⟨Bool.toNat_le _, Bool.toNat_le _, Bool.toNat_le _, Bool.toNat_le _, s.ecode.code_le⟩

/-- Nothing of STATUS is lost in 32 bits (20_memory.md R52). -/
theorem statusWord_toNat (s : State) :
    (statusWord s).toNat =
      s.busy.toNat + 2 * s.done.toNat + 4 * s.err.toNat + 8 * s.ovr.toNat + 16 * s.ecode.code := by
  obtain ⟨hb, hd, he, ho, hc⟩ := statusFields_le s
  rw [statusWord, BitVec.toNat_ofNat, Nat.mod_eq_of_lt (by omega)]

/-- A bit of a word is `b` if the number has `b` at that place. -/
theorem getLsbD_of_div_mod {w : Word} {i : Nat} {b : Bool} (h : w.toNat / 2 ^ i % 2 = b.toNat) :
    w.getLsbD i = b := by
  rw [← BitVec.testBit_toNat, Nat.testBit_eq_decide_div_mod_eq, h]
  cases b <;> rfl

/-- CTRL has IE in bit 0 and zeros above (10_state.md R28). -/
theorem ctrlWord_getLsbD (s : State) (i : Nat) :
    (ctrlWord s).getLsbD i = (decide (i = 0) && s.ie) := by
  rw [ctrlWord, BitVec.getLsbD_ofNat]
  cases s.ie with
  | false => simp
  | true => cases i <;> simp [Nat.testBit_succ]

/-- PARAM is WORDS and NREG in every admitted build (10_state.md R29). -/
theorem paramWord_toNat {s : State} (h : WidthOk s) :
    (paramWord s).toNat = s.words + 16 * 2 ^ 8 := by
  obtain ⟨-, hmax⟩ := h
  simp only [Config.maxWords] at hmax
  rw [paramWord, BitVec.toNat_ofNat, Config.nreg]
  omega

/-! ### The STATUS write -/

/-- A STATUS write field by field: bit 1 clears the DONE group of an idle block, bit 3 clears OVR
(10_state.md R36). -/
theorem writeStatus_eq (s : State) (v : Word) :
    writeStatus s v = { s with
      done := s.done && !(v.getLsbD 1 && !s.busy)
      err := s.err && !(v.getLsbD 1 && !s.busy)
      ecode := if v.getLsbD 1 && !s.busy then .none else s.ecode
      ovr := s.ovr && !v.getLsbD 3 } := by
  rcases s with ⟨_, _, busy, _⟩
  unfold writeStatus clearDone
  generalize v.getLsbD 1 = ack
  generalize v.getLsbD 3 = clear
  cases ack <;> cases clear <;> cases busy <;> simp

/-! ### A command on states that agree on its sources -/

/-- On two states of one width with the same source registers a command ends alike: with one value,
or with one error (10_state.md R31). -/
theorem exec_congr (i : Instr) {s s' : State} (hw : s.words = s'.words)
    (hsrc : ∀ r ∈ i.sources, s.reg r = s'.reg r) :
    (∃ v, exec i s = .next (normalCompletion s i.dest v) ∧
      exec i s' = .next (normalCompletion s' i.dest v)) ∨
    (∃ c, exec i s = .next (errorCompletion s c) ∧ exec i s' = .next (errorCompletion s' c)) := by
  cases i with
  | mulmod rd ra rb rn | modexp rd ra rb rn | modexpc rd ra rb rn =>
    simp only [Instr.sources, List.forall_mem_cons] at hsrc
    obtain ⟨ha, hb, hn, -⟩ := hsrc
    simp only [exec, execMulmod, execModexp, execModexpc, Instr.dest, ha, hb, hn]
    split_ifs
    · exact .inr ⟨_, rfl, rfl⟩
    · exact .inl ⟨_, rfl, rfl⟩
  | montmul rd ra rb rn =>
    simp only [Instr.sources, List.forall_mem_cons] at hsrc
    obtain ⟨ha, hb, hn, -⟩ := hsrc
    simp only [exec, execMontmul, Instr.dest, State.width, hw, ha, hb, hn]
    split_ifs
    · exact .inr ⟨_, rfl, rfl⟩
    · exact .inr ⟨_, rfl, rfl⟩
    · exact .inl ⟨_, rfl, rfl⟩
  | modinv rd ra rn =>
    simp only [Instr.sources, List.forall_mem_cons] at hsrc
    obtain ⟨ha, hn, -⟩ := hsrc
    simp only [exec, execModinv, Instr.dest, ha, hn]
    cases modInv? (s'.reg ra) (s'.reg rn) with
    | none => exact .inr ⟨_, rfl, rfl⟩
    | some d => exact .inl ⟨d, rfl, rfl⟩
  | primetest rd ra =>
    have ha : s.reg ra = s'.reg ra := hsrc ra (by simp [Instr.sources])
    exact .inl ⟨(isPrime (s.reg ra)).toNat, rfl, by rw [ha]; rfl⟩

end Sys2Proof.Machine
end

section
/-! PROOFS. The invariant of the block (10_state.md R20, R27, R30): every operation keeps it, hence
every step. -/

namespace Sys2Proof.Machine

variable {s : State}

theorem setReg_regsFit (h : RegsFit s) (r : Reg) {v : Nat} (hv : v < 2 ^ s.width) :
    RegsFit (s.setReg r v) := by
  intro q
  by_cases hq : q = r
  · subst hq
    simpa [State.width] using hv
  · rw [State.reg_setReg_ne s hq]
    exact h q

theorem setReg_inv (h : Inv s) (r : Reg) {v : Nat} (hv : v < 2 ^ s.width) : Inv (s.setReg r v) := by
  obtain ⟨hwidth, hregs, hstatus, hlatch⟩ := h
  exact ⟨hwidth, setReg_regsFit hregs r hv, hstatus, hlatch⟩

theorem accept_inv (h : Inv s) (w : Word) : Inv (accept s w) := by
  obtain ⟨hwidth, hregs, -, -⟩ := h
  exact ⟨hwidth, hregs, by simp [StatusOk], by simp [LatchOk]⟩

theorem normalCompletion_inv (h : Inv s) (r : Reg) {v : Nat} (hv : v < 2 ^ s.width) :
    Inv (normalCompletion s r v) := by
  obtain ⟨hwidth, hregs, -, -⟩ := h
  exact ⟨hwidth, setReg_regsFit hregs r hv, by simp [StatusOk], by simp [LatchOk]⟩

theorem errorCompletion_inv (h : Inv s) {c : ECode} (hc : c ≠ .none) :
    Inv (errorCompletion s c) := by
  obtain ⟨hwidth, hregs, -, -⟩ := h
  exact ⟨hwidth, hregs, by simp [StatusOk, hc], by simp [LatchOk]⟩

/-- The DONE group is cleared together and only on an idle block, so (a) to (c) of R27 are kept. -/
theorem writeStatus_inv (h : Inv s) (v : Word) : Inv (writeStatus s v) := by
  obtain ⟨hwidth, hregs, hstatus, hlatch⟩ := h
  rw [writeStatus_eq]
  refine ⟨hwidth, hregs, ?_, hlatch⟩
  cases hclear : v.getLsbD 1 && !s.busy with
  | false => simpa [StatusOk] using hstatus
  | true => simp [StatusOk]

theorem applyReset_inv (h : WidthOk s) : Inv (applyReset s) :=
  ⟨h, by simp [RegsFit], by simp [StatusOk], by simp [LatchOk]⟩

theorem hostWrite_inv (h : Inv s) (off : Nat) (v : Word) : Inv (hostWrite s off v) := by
  rcases hostWrite_cases s off v with he | ⟨-, he⟩ | ⟨-, he⟩ | ⟨-, he⟩ | he | ⟨-, r, k, hk, he⟩ <;>
    rw [he]
  · exact h
  · exact accept_inv h v
  · exact h
  · exact writeStatus_inv h v
  · exact h
  · have ⟨_, hregs, _, _⟩ := h
    exact setReg_inv h r (setRegWord_lt v (hregs r) hk)

theorem transact_inv (h : Inv s) {op : HostOp} {t : State} (ht : transact op s = .next t) :
    Inv t := by
  rcases transact_cases ht with ⟨off, -, -, -, rfl⟩ | ⟨off, v, -, -, -, rfl⟩
  · exact h
  · exact hostWrite_inv h off v

theorem complete_inv (h : Inv s) {t : State} (ht : complete s = .next t) : Inv t := by
  rcases complete_ends ht with ⟨r, v, rfl, hfit⟩ | ⟨c, hc, rfl⟩
  · have ⟨hwidth, hregs, _, _⟩ := h
    exact normalCompletion_inv h r (hfit hwidth.1 hregs)
  · exact errorCompletion_inv h hc

/-- Settles O5: by the agent that moved (`step_cases`), each of whose operations keeps the invariant;
the schedule is no part of it. -/
theorem stepKeepsInvariant : Obligations.StepKeepsInvariant := by
  intro s t hinv hstep
  have hrest (rest : List Event) : Inv { s with schedule := rest } := hinv
  rcases step_cases hstep with
    ⟨op, rest, -, hop⟩ | ⟨rest, -, hc⟩ | ⟨rest, -, rfl⟩ | ⟨-, -, hc⟩ | ⟨-, -, rfl⟩
  · exact transact_inv (hrest rest) hop
  · exact complete_inv (hrest rest) hc
  · exact applyReset_inv (hrest rest).1
  · exact complete_inv hinv hc
  · exact hinv

/-- Settles O4: reset is the all-zero state of its build, and R39's values meet every clause. -/
theorem resetMeetsInvariant : Obligations.ResetMeetsInvariant := by
  have hreset (words : Nat) (hmin : Config.minWords ≤ words) (hmax : words ≤ Config.maxWords) :
      Inv (State.resetFor words) :=
    applyReset_inv (s := State.resetFor words) ⟨hmin, hmax⟩
  exact ⟨hreset, hreset Config.referenceWords (by decide) (by decide)⟩

end Sys2Proof.Machine
end

section
/-! PROOFS. The state family (10_state.md): what a completion and a command write and leave unchanged,
the host's writes to CMD, STATUS, CTRL and PARAM, overrun, and the values after reset. -/

namespace Sys2Proof.Machine

/-! ### Completions and commands -/

/-- Settles O19: the completion was an exec of the decoded word (an illegal word sets ERR), and its
normal end (`exec_cases`) is `done(rd, v)` with a value that fits. -/
theorem normalCompletionWritesOneRegister : Obligations.NormalCompletionWritesOneRegister := by
  intro s t ⟨hwidth, hregs, _, _⟩ hstep herr
  rw [step_before_complete] at hstep
  obtain ⟨-, w, hw, ⟨i, hd, hexec⟩ | ⟨-, rfl⟩⟩ := complete_cases hstep
  · rcases exec_cases i s with ⟨v, hv, hfit⟩ | ⟨c, -, hv⟩ <;>
      obtain rfl := Host.Outcome.next.inj (hv.symm.trans hexec)
    · exact ⟨w, i, v, hw, hd, hfit hwidth.1 hregs, rfl⟩
    · simp at herr
  · simp at herr

/-- A port read depends on nothing but the width, IE, the STATUS word at STATUS's own offset, and the
register whose word the offset is (20_memory.md R52). -/
theorem readValue_congr {s t : State} {off : Nat} (hwords : t.words = s.words) (hie : t.ie = s.ie)
    (hstatus : off = 0x004 → statusWord t = statusWord s)
    (hreg : ∀ r k, targetOf s.words off = .operand r k → t.reg r = s.reg r) :
    readValue t off = readValue s off := by
  rw [readValue, readValue, hwords]
  cases htarget : targetOf s.words off with
  | cmd => rfl
  | status => exact hstatus (targetOf_eq_status htarget)
  | ctrl => simp [ctrlWord, hie]
  | param => simp [paramWord, hwords]
  | operand r k => simp [hreg r k htarget]
  | reserved => rfl

/-- Settles O22: both ends of a command (`exec_cases`) keep all but `rd` and the STATUS fields, and an
offset outside the words of `rd` names no word of `rd` (`operand_of_targetOf`). -/
theorem commandFrame : Obligations.CommandFrame := by
  intro i s t hexec
  have hread (hreg : ∀ r : Reg, r ≠ i.dest → t.reg r = s.reg r) (hwords : t.words = s.words)
      (hie : t.ie = s.ie) (off : Nat) (hoff : off ≠ Config.statusOff)
      (hout : ¬ (operandOffset s.words i.dest 0 ≤ off ∧
        off < operandOffset s.words i.dest s.words)) : readValue t off = readValue s off := by
    refine readValue_congr hwords hie (absurd · hoff) fun r k htarget => hreg r ?_
    rintro rfl
    obtain ⟨-, hlo, hhi⟩ := operand_of_targetOf htarget
    exact hout ⟨hlo, hhi⟩
  rcases exec_cases i s with ⟨v, hv, -⟩ | ⟨c, -, hv⟩ <;>
    obtain rfl := Host.Outcome.next.inj (hv.symm.trans hexec)
  · have hreg (r : Reg) (hr : r ≠ i.dest) := normalCompletion_reg_ne s hr v
    exact ⟨hreg, rfl, rfl, rfl, rfl, rfl, hread hreg rfl rfl⟩
  · exact ⟨fun _ _ => rfl, rfl, rfl, rfl, rfl, rfl, hread (fun _ _ => rfl) rfl rfl⟩

/-- Settles O23: the two runs end alike (`exec_congr`). -/
theorem resultDependsOnSourcesOnly : Obligations.ResultDependsOnSourcesOnly := by
  intro i s s' t t' hwords hsrc ht ht'
  rcases exec_congr i hwords hsrc with ⟨v, hv, hv'⟩ | ⟨c, hv, hv'⟩ <;>
    obtain rfl := Host.Outcome.next.inj (hv.symm.trans ht) <;>
    obtain rfl := Host.Outcome.next.inj (hv'.symm.trans ht') <;>
    simp

/-! ### The host's writes -/

/-- The word at CMD or in the operand window of a busy block is discarded (10_state.md R34). -/
theorem hostWrite_discarded {s : State} {off : Nat} (v : Word) (hb : s.busy = true)
    (hoff : off = 0x000 ∨ 0x100 ≤ off ∧ off < 0x100 + 64 * s.words) :
    hostWrite s off v = overrun s := by
  rcases hoff with rfl | ⟨hlo, hhi⟩
  · rw [hostWrite_cmd, writeCmd, if_pos hb]
  · obtain ⟨r, k, htarget⟩ := (targetOf_operand_iff s.words off).mpr ⟨hlo, hhi⟩
    rw [hostWrite, htarget]
    simp [writeOperand, hb]

/-- Outside CMD and the operand window a write does on a busy block what it does on an idle one: DONE,
ERR and ECODE, which only an idle block's STATUS write clears, are clear while BUSY
(10_state.md R27, R34). -/
theorem hostWrite_undisturbed {s : State} {off : Nat} (v : Word) (hstatus : StatusOk s)
    (hb : s.busy = true) (hoff : ¬ (off = 0x000 ∨ 0x100 ≤ off ∧ off < 0x100 + 64 * s.words)) :
    hostWrite { s with busy := false } off v = { hostWrite s off v with busy := false } ∧
      ((hostWrite s off v).ovr = true → s.ovr = true) := by
  rw [hostWrite, hostWrite]
  cases htarget : targetOf s.words off with
  | cmd => exact absurd (.inl (targetOf_eq_cmd htarget)) hoff
  | status =>
    obtain ⟨hdone, herr, hecode⟩ := hstatus.1 hb
    refine ⟨by simp [writeStatus_eq, hdone, herr, hecode, hb], fun hovr => ?_⟩
    rw [writeStatus_eq] at hovr
    exact (Bool.and_eq_true_iff.mp hovr).1
  | ctrl => exact ⟨rfl, id⟩
  | param => exact ⟨rfl, id⟩
  | operand r k => exact absurd (.inr ((targetOf_operand_iff _ _).mp ⟨r, k, htarget⟩)) hoff
  | reserved => exact ⟨rfl, id⟩

theorem complete_ovr {s t : State} (h : complete s = .next t) : t.ovr = s.ovr := by
  rcases complete_ends h with ⟨r, v, rfl, -⟩ | ⟨c, -, rfl⟩ <;> rfl

/-- A host write keeps a set OVR unless it is a STATUS write with bit 3 (10_state.md R34, R36). -/
theorem hostWrite_ovr {s : State} (h : s.ovr = true) (off : Nat) (v : Word) :
    (hostWrite s off v).ovr = true ∨ (off = 0x004 ∧ v.getLsbD 3 = true) := by
  rcases hostWrite_cases s off v with
    he | ⟨-, he⟩ | ⟨-, he⟩ | ⟨hoff, he⟩ | he | ⟨-, r, k, -, he⟩ <;> rw [he]
  · exact .inl h
  · exact .inl h
  · exact .inl rfl
  · cases h3 : v.getLsbD 3 with
    | false => exact .inl (by rw [writeStatus_eq, h, h3]; rfl)
    | true => exact .inr ⟨hoff, rfl⟩
  · exact .inl h
  · exact .inl h

/-- OVR is sticky: only reset and a STATUS write with bit 3 clear it (10_state.md R34). -/
theorem step_ovr {s t : State} (hstep : step s = .next t) (h : s.ovr = true) :
    t.ovr = true ∨ (∃ rest, s.schedule = .reset :: rest) ∨
      (∃ v rest, s.schedule = .host (.write 0x004 v) :: rest ∧ v.getLsbD 3 = true) := by
  rcases step_cases hstep with
    ⟨op, rest, hs, hop⟩ | ⟨rest, -, hc⟩ | ⟨rest, hs, -⟩ | ⟨-, -, hc⟩ | ⟨-, -, rfl⟩
  · rcases transact_cases hop with ⟨off, -, -, -, rfl⟩ | ⟨off, v, rfl, -, -, rfl⟩
    · exact .inl h
    · rcases hostWrite_ovr (s := { s with schedule := rest }) h off v with hkept | ⟨rfl, h3⟩
      · exact .inl hkept
      · exact .inr (.inr ⟨v, rest, hs, h3⟩)
  · exact .inl ((complete_ovr hc).trans h)
  · exact .inr (.inl ⟨rest, hs⟩)
  · exact .inl ((complete_ovr hc).trans h)
  · exact .inl h

/-- Settles O40: on an idle block a CMD write is acceptance, whatever DONE is. -/
theorem acceptanceOfAnyWord : Obligations.AcceptanceOfAnyWord := by
  intro s w hb
  rw [step_beforeWrite s w (by decide) (by decide), hostWrite_cmd, writeCmd, hb]
  rfl

/-- Settles O41: clause by clause from `hostWrite_discarded`, `hostWrite_undisturbed`,
`readValue_congr`, `complete_ovr`, acceptance and `step_ovr`. -/
theorem discardedWrites : Obligations.DiscardedWrites := by
  refine ⟨?discarded, ?undisturbed, ?reads, fun s t => complete_ovr, ?acceptance,
    fun s t => step_ovr⟩
  case discarded =>
    intro s off v ⟨_, hmax⟩ hb halign hoff
    simp only [Config.maxWords] at hmax
    rw [step_beforeWrite s v halign (by omega), hostWrite_discarded v hb hoff]
    rfl
  case undisturbed =>
    intro s off v ⟨_, _, hstatus, _⟩ hb halign hlt hoff
    obtain ⟨hidle, hovr⟩ := hostWrite_undisturbed v hstatus hb hoff
    exact ⟨_, step_beforeWrite s v halign hlt,
      by rw [step_beforeWrite _ v halign hlt, hidle], hovr⟩
  case reads =>
    intro s off hoff
    exact readValue_congr rfl rfl (absurd · hoff) fun _ _ _ => rfl
  case acceptance =>
    intro s w hb
    exact ⟨_, acceptanceOfAnyWord s w hb, rfl⟩

/-- Settles O42: the STATUS write field by field (`writeStatus_eq`). -/
theorem statusWriteClears : Obligations.StatusWriteClears := by
  intro s v
  refine ⟨writeStatus s v, by rw [step_beforeWrite s v (by decide) (by decide), hostWrite_status], ?_⟩
  rw [writeStatus_eq]
  refine ⟨?clears, ?keeps, rfl, rfl, rfl, rfl, rfl, rfl⟩
  case clears =>
    rintro ⟨h1, hb⟩
    simp [h1, hb, irq]
  case keeps =>
    rintro (h1 | hb)
    · simp only [h1, Bool.false_and, Bool.not_false, Bool.and_true]
      simp
    · simp [hb]

/-- Settles O43: a CTRL write is `writeCtrl`, and CTRL's bits are `ctrlWord_getLsbD`'s. -/
theorem ctrlWriteStoresEnable : Obligations.CtrlWriteStoresEnable := by
  intro s v
  rw [readValue_ctrl]
  refine ⟨?_, ctrlWord_getLsbD s 0, fun i hi => ?_, rfl,
    applyReset s, step_before_reset s, rfl⟩
  · rw [step_beforeWrite s v (by decide) (by decide), hostWrite_ctrl]
    rfl
  · rw [ctrlWord_getLsbD, decide_eq_false (by omega), Bool.false_and]

/-! ### PARAM, STATUS and the values after reset -/

theorem hostWrite_words (s : State) (off : Nat) (v : Word) :
    (hostWrite s off v).words = s.words := by
  rcases hostWrite_cases s off v with
    he | ⟨-, he⟩ | ⟨-, he⟩ | ⟨-, he⟩ | he | ⟨-, r, k, -, he⟩ <;> simp [he, writeStatus_eq]

theorem complete_words {s t : State} (h : complete s = .next t) : t.words = s.words := by
  rcases complete_ends h with ⟨r, v, rfl, -⟩ | ⟨c, -, rfl⟩ <;> rfl

/-- The build's width is never written (10_state.md R29). -/
theorem step_words {s t : State} (h : step s = .next t) : t.words = s.words := by
  rcases step_cases h with
    ⟨op, rest, -, hop⟩ | ⟨rest, -, hc⟩ | ⟨rest, -, rfl⟩ | ⟨-, -, hc⟩ | ⟨-, -, rfl⟩
  · rcases transact_cases hop with ⟨off, -, -, -, rfl⟩ | ⟨off, v, -, -, -, rfl⟩
    · rfl
    · exact hostWrite_words _ off v
  · exact (complete_words hc :)
  · rfl
  · exact complete_words hc
  · rfl

/-- Settles O44: `paramWord_toNat` and `step_words`; a PARAM write is no effect of the port. -/
theorem paramIsConstant : Obligations.ParamIsConstant := by
  intro s v hwidth
  have hparam : (readValue s 0x00C).toNat = s.words + 16 * 2 ^ 8 := paramWord_toNat hwidth
  refine ⟨hparam, fun h2 => BitVec.eq_of_toNat_eq (by rw [hparam, h2]; rfl), ?_, fun t => step_words⟩
  rw [step_beforeWrite s v (by decide) (by decide), hostWrite_param]

/-- Settles O51: the STATUS word is a sum of its fields at their places (`statusWord_toNat`), each
field smaller than the next one's place value. -/
theorem statusWordLayout : Obligations.StatusWordLayout := by
  intro s
  have hword := statusWord_toNat s
  obtain ⟨hb, hd, he, ho, hc⟩ := statusFields_le s
  refine ⟨statusWord s, readValue_status s, getLsbD_of_div_mod (by omega),
    getLsbD_of_div_mod (by omega), getLsbD_of_div_mod (by omega), getLsbD_of_div_mod (by omega),
    ?_, ?_⟩
  · rw [bitField, codeOf_eq_code]
    omega
  · rw [bitField]
    omega

/-- Settles O1: every field of `State.resetFor` is R39's, and PARAM is `paramWord_toNat`. -/
theorem resetLeavesSpecValues : Obligations.ResetLeavesSpecValues := by
  intro words hmin hmax
  refine ⟨fun r => ?_, rfl, rfl, rfl, rfl, rfl, rfl, rfl, rfl,
    paramWord_toNat (s := State.resetFor words) ⟨hmin, hmax⟩⟩
  simp [State.reg, State.resetFor]

/-! ### The command in flight -/

/-- Settles O13: a completion with a legal word in flight is that command's exec. -/
theorem stepRunsDecodedCommand : Obligations.StepRunsDecodedCommand := by
  intro s w i hb hw hd
  have hcomplete : complete s = exec i s := complete_of_decode hb hw hd
  exact ⟨(step_before_complete s).trans hcomplete, fun hs => (step_of_owed hs hb).trans hcomplete⟩

/-- Settles O14: placing leaves the word in flight with its completion next, and a table word's bytes
decode as the word does. -/
theorem placedWordRunsNext : Obligations.PlacedWordRunsNext := by
  intro s nbits w i hi
  obtain ⟨-, hd⟩ := (decodeTableWord_eq_some_iff nbits w i).mp hi
  exact complete_of_decode (s := accept s (tableWord nbits w)) rfl rfl hd

/-- Settles O16: with BUSY 0 the completion is not enabled (`complete_of_idle`) and none is owed
(`step_of_idle`). -/
theorem idleBlockDoesNothing : Obligations.IdleBlockDoesNothing := by
  intro s hb
  exact ⟨(step_before_complete s).trans (complete_of_idle hb), fun hs => step_of_idle hs hb⟩

end Sys2Proof.Machine
end

section
/-! SUPPORT. The host port offset by offset: what an access at a word of an operand register or at a
reserved offset comes to, refused accesses, and a register as the sum of its words. -/

namespace Sys2Proof.Machine

/-! ### Reads and refused accesses as steps -/

/-- A read at an aligned offset of the window is performed (20_memory.md R56). -/
theorem step_beforeRead (s : State) {off : Nat} (h : off % 4 = 0) (h' : off < 0x1000) :
    step (beforeRead off s) = .next (hostRead s off) := by
  rw [step_before, perform, transact, (offsetRefusal_eq_none_iff off).mpr ⟨h, h'⟩]

theorem offsetRefusal_of_misaligned {off : Nat} (h : off % 4 ≠ 0) :
    offsetRefusal off = some (.misalignedAccess off) := if_pos h

theorem offsetRefusal_of_outside {off : Nat} (h : off % 4 = 0) (h' : off ≥ 0x1000) :
    offsetRefusal off = some (.outsideWindow off) := by
  rw [offsetRefusal, if_neg (not_not.mpr h)]
  exact if_pos h'

/-- An offset that is refused is refused to reads and to writes alike (20_memory.md R56). -/
theorem step_of_offsetRefusal {off : Nat} {r : Refusal} (h : offsetRefusal off = some r)
    (s : State) (v : Word) :
    step (beforeRead off s) = .refused r ∧ step (beforeWrite off v s) = .refused r := by
  constructor <;> rw [step_before, perform, transact, h]

/-- A read changes nothing that a read can see (20_memory.md R52). -/
theorem readValue_hostRead (s : State) (off off' : Nat) :
    readValue (hostRead s off) off' = readValue s off' :=
  readValue_congr rfl rfl (fun _ => rfl) fun _ _ _ => rfl

/-! ### Operand words and reserved offsets -/

/-- `operandOffset` is R52's formula, with W/8 the bytes of a register. -/
theorem operandOffset_eq (s : State) (r : Reg) (k : Nat) :
    operandOffset s.words r k = 0x100 + r.val * (s.width / 8) + 4 * k := by
  rw [operandOffset, Config.operandOff, State.width, show 32 * s.words / 8 = 4 * s.words by omega]

theorem readValue_operandOffset (s : State) (r : Reg) {k : Nat} (hk : k < s.words) :
    readValue s (operandOffset s.words r k) = regWord (s.reg r) k := by
  rw [readValue, targetOf_operandOffset r hk]

theorem hostWrite_operandOffset (s : State) (r : Reg) {k : Nat} (hk : k < s.words) (v : Word) :
    hostWrite s (operandOffset s.words r k) v = writeOperand s r k v := by
  rw [hostWrite, targetOf_operandOffset r hk]

/-- Between PARAM and the operand window, and above it, no offset names anything (20_memory.md R51,
R57). -/
theorem targetOf_eq_reserved {s : State} {off : Nat}
    (h : (0x010 ≤ off ∧ off < 0x100) ∨ 0x100 + 2 * s.width ≤ off) :
    targetOf s.words off = .reserved := by
  rw [State.width] at h
  rw [targetOf, if_neg (by rw [Config.cmdOff]; omega), if_neg (by rw [Config.statusOff]; omega),
    if_neg (by rw [Config.ctrlOff]; omega), if_neg (by rw [Config.paramOff]; omega),
    if_neg (by rw [Config.operandOff, Config.nreg]; omega)]

theorem readValue_reserved {s : State} {off : Nat} (h : targetOf s.words off = .reserved) :
    readValue s off = 0 := by
  rw [readValue, h]

theorem hostWrite_reserved {s : State} {off : Nat} (h : targetOf s.words off = .reserved)
    (v : Word) : hostWrite s off v = s := by
  rw [hostWrite, h]

/-! ### Words as numbers -/

theorem ctrlWord_toNat (s : State) : (ctrlWord s).toNat = s.ie.toNat := by
  rw [ctrlWord, BitVec.toNat_ofNat, Nat.mod_eq_of_lt (by cases s.ie <;> decide)]

theorem regWord_toNat (v k : Nat) : (regWord v k).toNat = v / 2 ^ (32 * k) % 2 ^ 32 :=
  BitVec.toNat_ofNat _ _

/-- The first `n` words of a value make up its low `32 n` bits (20_memory.md R54). -/
theorem sum_regWord (v n : Nat) :
    ((List.range n).map fun k => (regWord v k).toNat * 2 ^ (32 * k)).sum = v % 2 ^ (32 * n) := by
  induction n with
  | zero => simp [Nat.mod_one]
  | succ n ih =>
    rw [List.range_succ, List.map_append, List.sum_append, ih, List.map_singleton,
      List.sum_singleton, regWord_toNat, pow_mul, pow_mul, Nat.mod_pow_succ (b := 2 ^ 32), Nat.mul_comm]

end Sys2Proof.Machine
end

section
/-! PROOFS. The host port family (20_memory.md): the tables of reads and writes, a register through its
words, reserved offsets and refused accesses. -/

namespace Sys2Proof.Machine

/-- Settles O46: a read is `hostRead`, which only the host's record sees, and its value is that of the
register, operand word or reserved offset the offset names. -/
theorem hostReadTable : Obligations.HostReadTable := by
  intro s off hwidth halign hlt
  refine ⟨⟨hostRead s off, step_beforeRead s halign hlt, rfl, readValue_hostRead s off off⟩,
    _, rfl, ?cmd, ?status, ?ctrl, ?param, ?operand,
    fun h => readValue_reserved (targetOf_eq_reserved h)⟩
  case cmd => rintro rfl; rfl
  case status => rintro rfl; rw [readValue_status, statusWord_toNat, codeOf_eq_code]
  case ctrl => rintro rfl; rw [readValue_ctrl, ctrlWord_toNat]
  case param => rintro rfl; rw [readValue_param, paramWord_toNat hwidth]
  case operand =>
    rintro i k hk rfl
    rw [← operandOffset_eq, readValue_operandOffset s i hk, regWord_toNat]

/-- Settles O47: a write is `hostWrite`, whose effect is that of what the offset names; the register's
other words are kept by `regWord_setRegWord_ne`. -/
theorem hostWriteTable : Obligations.HostWriteTable := by
  intro s off v _ halign hlt
  rw [step_beforeWrite s v halign hlt]
  refine ⟨?cmd, ?status, ?ctrl, ?param, ?operand,
    fun h => by rw [hostWrite_reserved (targetOf_eq_reserved h)]⟩
  case cmd => rintro rfl; rfl
  case status => rintro rfl; rw [hostWrite_status, writeStatus_eq]
  case ctrl => rintro rfl; rfl
  case param => rintro rfl; rfl
  case operand =>
    rintro i k hk rfl
    rw [← operandOffset_eq, hostWrite_operandOffset s i hk, writeOperand]
    constructor
    · intro hb
      rw [if_pos hb, overrun]
    · intro hb
      refine ⟨setRegWord (s.reg i) k v, by rw [if_neg (by simp [hb])]; rfl, ?_, fun j hj => ?_⟩
      · rw [← regWord_toNat, regWord_setRegWord_same]
      · rw [← regWord_toNat, ← regWord_toNat, regWord_setRegWord_ne _ hj]

/-- Settles O48: the words sum to the value's low W bits (`sum_regWord`), which are all of it. -/
theorem registerIsItsWords : Obligations.RegisterIsItsWords := by
  intro s r ⟨_, hregs, _, _⟩
  have hwords : ∀ k ∈ List.range s.words,
      (readValue s (0x100 + r.val * (s.width / 8) + 4 * k)).toNat * 2 ^ (32 * k) =
        (regWord (s.reg r) k).toNat * 2 ^ (32 * k) := by
    intro k hk
    rw [← operandOffset_eq, readValue_operandOffset s r (List.mem_range.mp hk)]
  rw [List.map_congr_left hwords, sum_regWord]
  exact (Nat.mod_eq_of_lt (hregs r)).symm

/-- Settles O50: both ranges are reserved in the address map, whatever BUSY is. -/
theorem reservedOffsetsAreInert : Obligations.ReservedOffsetsAreInert := by
  intro s off v halign hlt hrange
  have hreserved : targetOf s.words off = .reserved :=
    targetOf_eq_reserved (hrange.imp_left (And.imp_right Nat.lt_succ_of_le))
  exact ⟨readValue_reserved hreserved,
    by rw [step_beforeWrite s v halign hlt, hostWrite_reserved hreserved]⟩

/-- Settles O49: the port looks at the width, then at the alignment, then at the window. -/
theorem otherAccessesAreRefused : Obligations.OtherAccessesAreRefused := by
  intro s off v
  exact ⟨fun _ => rfl, fun h => step_of_offsetRefusal (offsetRefusal_of_misaligned h) s v,
    fun h h' => step_of_offsetRefusal (offsetRefusal_of_outside h h') s v⟩

end Sys2Proof.Machine
end

section
/-! SUPPORT. Further laws of the decoder (30_encoding.md): the words it accepts, field by field,
that it inverts the encoder, and R85's masks as the fields they select. -/

namespace Sys2Proof

/-! ### What the decoder can answer -/

/-- A register field is x0 iff its four bits are zero (30_encoding.md R83). -/
theorem regField_eq_zero_iff (w : Word) (lo : Nat) : regField w lo = 0 ↔ bitField w lo 4 = 0 := by
  have := bitField_lt w lo 4
  rw [Fin.ext_iff]
  simp only [regField, Fin.ofNat, Fin.val_zero]
  omega

/-- The decoder said once: the low byte is zero, the opcode is one of six, the fields the format
does not use are zero, and the command has the fields of the word (30_encoding.md R86). -/
theorem decode_eq_ok_iff (w : Word) (i : Instr) :
    decode w = .ok i ↔ bitField w 0 8 = 0 ∧
      ((bitField w 24 8 = 1 ∧
          i = .mulmod (regField w 20) (regField w 16) (regField w 12) (regField w 8)) ∨
       (bitField w 24 8 = 2 ∧
          i = .montmul (regField w 20) (regField w 16) (regField w 12) (regField w 8)) ∨
       (bitField w 24 8 = 3 ∧
          i = .modexp (regField w 20) (regField w 16) (regField w 12) (regField w 8)) ∨
       (bitField w 24 8 = 4 ∧
          i = .modexpc (regField w 20) (regField w 16) (regField w 12) (regField w 8)) ∨
       (bitField w 24 8 = 5 ∧ regField w 12 = 0 ∧
          i = .modinv (regField w 20) (regField w 16) (regField w 8)) ∨
       (bitField w 24 8 = 6 ∧ regField w 12 = 0 ∧ regField w 8 = 0 ∧
          i = .primetest (regField w 20) (regField w 16))) := by
  rw [decode]
  by_cases hz : bitField w 0 8 = 0
  · simp only [hz, ne_eq, not_true_eq_false, if_false, true_and]
    split_ifs
    all_goals simp_all [eq_comm (b := i)]
  · simp [hz]

/-- The words that decode to a command of a given mnemonic, by their fields. -/
theorem exists_decode_mnemonic_iff (w : Word) (m : String) :
    (∃ i, decode w = .ok i ∧ i.mnemonic = m) ↔ bitField w 0 8 = 0 ∧
      ((bitField w 24 8 = 1 ∧ m = "MULMOD") ∨ (bitField w 24 8 = 2 ∧ m = "MONTMUL") ∨
        (bitField w 24 8 = 3 ∧ m = "MODEXP") ∨ (bitField w 24 8 = 4 ∧ m = "MODEXPC") ∨
        (bitField w 24 8 = 5 ∧ bitField w 12 4 = 0 ∧ m = "MODINV") ∨
        (bitField w 24 8 = 6 ∧ bitField w 12 4 = 0 ∧ bitField w 8 4 = 0 ∧ m = "PRIMETEST")) := by
  simp [decode_eq_ok_iff, Instr.mnemonic, regField_eq_zero_iff, or_and_right, exists_or, and_assoc,
    eq_comm (b := m)]

/-- The legal words by their fields (30_encoding.md R87). -/
theorem exists_decode_iff (w : Word) :
    (∃ i, decode w = .ok i) ↔ bitField w 0 8 = 0 ∧
      (bitField w 24 8 ∈ [1, 2, 3, 4] ∨ (bitField w 24 8 = 5 ∧ bitField w 12 4 = 0) ∨
        (bitField w 24 8 = 6 ∧ bitField w 12 4 = 0 ∧ bitField w 8 4 = 0)) := by
  simp [decode_eq_ok_iff, exists_or, regField_eq_zero_iff, or_assoc]

theorem isIllegal_eq_false_iff (w : Word) : isIllegal w = false ↔ ∃ i, decode w = .ok i := by
  rw [isIllegal]
  cases decode w <;> simp

/-! ### The decoder and the encoder -/

theorem decode_encode (i : Instr) : decode (encode i) = .ok i := by
  rw [decode_eq_ok_iff]
  cases i <;>
    simp [encode, bitField_packWord_z, bitField_packWord_op, regField_packWord_rd,
      regField_packWord_ra, regField_packWord_rb, regField_packWord_rn]

theorem encode_of_decode {w : Word} {i : Instr} (h : decode w = .ok i) : encode i = w := by
  obtain ⟨hz, hform⟩ := (decode_eq_ok_iff w i).mp h
  have hpack := packWord_fields hz
  rcases hform with ⟨hop, rfl⟩ | ⟨hop, rfl⟩ | ⟨hop, rfl⟩ | ⟨hop, rfl⟩ | ⟨hop, hrb, rfl⟩ |
    ⟨hop, hrb, hrn, rfl⟩
  · rwa [hop] at hpack
  · rwa [hop] at hpack
  · rwa [hop] at hpack
  · rwa [hop] at hpack
  · rwa [hop, hrb] at hpack
  · rwa [hop, hrb, hrn] at hpack

theorem decode_eq_ok_iff_encode (w : Word) (i : Instr) : decode w = .ok i ↔ encode i = w :=
  ⟨encode_of_decode, fun h => h ▸ decode_encode i⟩

theorem encode_injective : Function.Injective encode := fun i j h =>
  Except.ok.inj ((decode_encode i).symm.trans (h ▸ decode_encode j))

/-! ### Masks -/

/-- The mask of the bits `lo + n - 1 : lo`. -/
def fieldMask (lo n : Nat) : Word := BitVec.ofNat 32 ((2 ^ n - 1) * 2 ^ lo)

/-- The mask of several fields, each given by its lowest bit and its length. -/
def fieldsMask : List (Nat × Nat) → Word
  | [] => 0
  | (lo, n) :: fs => fieldMask lo n ||| fieldsMask fs

theorem fieldMask_getLsbD (lo n i : Nat) :
    (fieldMask lo n).getLsbD i = decide (i < 32 ∧ lo ≤ i ∧ i < lo + n) := by
  rw [fieldMask, BitVec.getLsbD_ofNat, Nat.mul_comm, Nat.testBit_two_pow_mul,
    Nat.testBit_two_pow_sub_one, Bool.eq_iff_iff]
  simp only [Bool.and_eq_true, decide_eq_true_eq]
  omega

theorem bitField_testBit (w : Word) (lo n i : Nat) :
    (bitField w lo n).testBit i = (decide (i < n) && w.getLsbD (lo + i)) := by
  rw [bitField, Nat.testBit_mod_two_pow, Nat.testBit_div_two_pow, BitVec.testBit_toNat,
    Nat.add_comm]

/-- A field is the same in two words iff its bits are. -/
theorem bitField_eq_iff (w p : Word) (lo n : Nat) :
    bitField w lo n = bitField p lo n ↔
      ∀ i, lo ≤ i → i < lo + n → w.getLsbD i = p.getLsbD i := by
  constructor
  · intro h i hlo hi
    obtain ⟨j, rfl⟩ := Nat.exists_eq_add_of_le hlo
    have hj : j < n := by omega
    simpa [bitField_testBit, hj] using congrArg (·.testBit j) h
  · intro h
    apply Nat.eq_of_testBit_eq
    intro j
    rw [bitField_testBit, bitField_testBit]
    by_cases hj : j < n
    · rw [h (lo + j) (by omega) (by omega)]
    · simp [hj]

/-- Two words agree under a mask iff they agree on each of its bits. -/
theorem and_eq_and_iff (w p m : Word) :
    w &&& m = p &&& m ↔ ∀ i, m.getLsbD i = true → w.getLsbD i = p.getLsbD i := by
  constructor
  · intro h i hi
    simpa [hi] using congrArg (·.getLsbD i) h
  · intro h
    apply BitVec.eq_of_getLsbD_eq
    intro i _
    cases hi : m.getLsbD i with
    | false => simp [hi]
    | true => simp [hi, h i hi]

theorem and_fieldMask_eq_iff (w p : Word) (lo n : Nat) :
    w &&& fieldMask lo n = p &&& fieldMask lo n ↔ bitField w lo n = bitField p lo n := by
  rw [and_eq_and_iff, bitField_eq_iff]
  simp only [fieldMask_getLsbD, decide_eq_true_eq]
  refine forall_congr' fun i => ⟨fun h hlo hi => ?_, fun h ⟨_, hlo, hi⟩ => h hlo hi⟩
  by_cases hlt : i < 32
  · exact h ⟨hlt, hlo, hi⟩
  · rw [BitVec.getLsbD_of_ge w i (by omega), BitVec.getLsbD_of_ge p i (by omega)]

/-- Two words agree under the mask of several fields iff they agree on each field. -/
theorem and_fieldsMask_eq_iff (w p : Word) (fs : List (Nat × Nat)) :
    w &&& fieldsMask fs = p &&& fieldsMask fs ↔
      ∀ f ∈ fs, bitField w f.1 f.2 = bitField p f.1 f.2 := by
  induction fs with
  | nil => simp [fieldsMask]
  | cons f fs ih =>
    have hor : w &&& fieldsMask (f :: fs) = p &&& fieldsMask (f :: fs) ↔
        w &&& fieldMask f.1 f.2 = p &&& fieldMask f.1 f.2 ∧
          w &&& fieldsMask fs = p &&& fieldsMask fs := by
      simp [fieldsMask, and_eq_and_iff, or_imp, forall_and]
    rw [hor, and_fieldMask_eq_iff, ih, List.forall_mem_cons]

/-- A row whose mask selects the opcode byte and some fields its pattern has zero is matched by the
words with the pattern's opcode and those fields zero (30_encoding.md R85). -/
theorem and_mask_eq_pattern_iff (zeros : List (Nat × Nat)) (op : Nat) {mask p : Word}
    (hrow : mask = fieldsMask ((24, 8) :: zeros) ∧ p &&& mask = p ∧ bitField p 24 8 = op ∧
      ∀ f ∈ zeros, bitField p f.1 f.2 = 0) (w : Word) :
    w &&& mask = p ↔ bitField w 24 8 = op ∧ ∀ f ∈ zeros, bitField w f.1 f.2 = 0 := by
  obtain ⟨rfl, hp, rfl, hzeros⟩ := hrow
  have hfields := and_fieldsMask_eq_iff w p ((24, 8) :: zeros)
  rw [hp, List.forall_mem_cons] at hfields
  rw [hfields]
  exact and_congr_right fun _ => forall₂_congr fun f hf => by rw [hzeros f hf]

/-- Each row of the table is matched by the words that decode to its mnemonic (30_encoding.md R85,
R86). -/
theorem exists_decode_mnemonic_iff_match : ∀ row ∈ opcodeTable, ∀ w : Word,
    (∃ i, decode w = .ok i ∧ i.mnemonic = row.mnemonic) ↔ w &&& row.mask = row.pattern := by
  simp only [opcodeTable, List.forall_mem_cons, exists_decode_mnemonic_iff]
  refine ⟨fun w => ?mulmod, fun w => ?montmul, fun w => ?modexp, fun w => ?modexpc,
    fun w => ?modinv, fun w => ?primetest, by simp⟩
  case mulmod => rw [and_mask_eq_pattern_iff [(0, 8)] 1 (by decide)]; simp [and_comm]
  case montmul => rw [and_mask_eq_pattern_iff [(0, 8)] 2 (by decide)]; simp [and_comm]
  case modexp => rw [and_mask_eq_pattern_iff [(0, 8)] 3 (by decide)]; simp [and_comm]
  case modexpc => rw [and_mask_eq_pattern_iff [(0, 8)] 4 (by decide)]; simp [and_comm]
  case modinv =>
    rw [and_mask_eq_pattern_iff [(0, 8), (12, 4)] 5 (by decide)]; simp [and_left_comm]
  case primetest =>
    rw [and_mask_eq_pattern_iff [(0, 8), (12, 4), (8, 4)] 6 (by decide)]; simp [and_left_comm]

/-- The `op` byte differs in every row, and every mask covers it (30_encoding.md R85). -/
theorem opcodeTable_op_injective : ∀ row ∈ opcodeTable,
    row.mask &&& fieldMask 24 8 = fieldMask 24 8 ∧
    ∀ row' ∈ opcodeTable, row.pattern &&& fieldMask 24 8 = row'.pattern &&& fieldMask 24 8 →
      row = row' := by
  decide

/-- A word has the `op` byte of any row it matches. -/
theorem op_of_match {row : TableRow} (hrow : row ∈ opcodeTable) {w : Word}
    (h : w &&& row.mask = row.pattern) :
    row.pattern &&& fieldMask 24 8 = w &&& fieldMask 24 8 := by
  rw [← h, BitVec.and_assoc, (opcodeTable_op_injective row hrow).1]

/-! ### Commands as register fields -/

/-- The register fields of the six commands: four of format Q, one of T, one of D (30_encoding.md
R82). -/
abbrev CommandFields : Type :=
  (Reg × Reg × Reg × Reg) ⊕ (Reg × Reg × Reg × Reg) ⊕ (Reg × Reg × Reg × Reg) ⊕
    (Reg × Reg × Reg × Reg) ⊕ (Reg × Reg × Reg) ⊕ (Reg × Reg)

/-- A command is its mnemonic with its fields. -/
def Instr.equivFields : Instr ≃ CommandFields where
  toFun
    | .mulmod rd ra rb rn => .inl (rd, ra, rb, rn)
    | .montmul rd ra rb rn => .inr (.inl (rd, ra, rb, rn))
    | .modexp rd ra rb rn => .inr (.inr (.inl (rd, ra, rb, rn)))
    | .modexpc rd ra rb rn => .inr (.inr (.inr (.inl (rd, ra, rb, rn))))
    | .modinv rd ra rn => .inr (.inr (.inr (.inr (.inl (rd, ra, rn)))))
    | .primetest rd ra => .inr (.inr (.inr (.inr (.inr (rd, ra)))))
  invFun
    | .inl (rd, ra, rb, rn) => .mulmod rd ra rb rn
    | .inr (.inl (rd, ra, rb, rn)) => .montmul rd ra rb rn
    | .inr (.inr (.inl (rd, ra, rb, rn))) => .modexp rd ra rb rn
    | .inr (.inr (.inr (.inl (rd, ra, rb, rn)))) => .modexpc rd ra rb rn
    | .inr (.inr (.inr (.inr (.inl (rd, ra, rn))))) => .modinv rd ra rn
    | .inr (.inr (.inr (.inr (.inr (rd, ra))))) => .primetest rd ra
  left_inv i := by cases i <;> rfl
  right_inv := by rintro (_ | _ | _ | _ | _ | _) <;> rfl

theorem card_commandFields : Fintype.card CommandFields = 4 * 2 ^ 16 + 2 ^ 12 + 2 ^ 8 := by
  simp

end Sys2Proof
end

section
/-! SUPPORT. An illegal word's completion, and the pseudo-operations LI and RD word by word
(30_encoding.md R87, R90). -/

namespace Sys2Proof.Machine

theorem complete_of_illegal {s : State} {w : Word} (hb : s.busy = true)
    (hw : s.inflight = some w) (h : isIllegal w = true) :
    complete s = .next (errorCompletion s .illegalCmd) := by
  rw [isIllegal] at h
  cases hd : decode w with
  | ok i => simp [hd] at h
  | error e => simp [complete, hb, hw, hd, raiseError]

theorem andThen_of_next {α β : Type} {p : Proc α} {f : α → Proc β} {s t : State} {a : α}
    (h : p s = .next (a, t)) : andThen p f s = f a t := by
  rw [andThen, h]

@[simp] theorem State.setReg_setReg (s : State) (r : Reg) (v u : Nat) :
    (s.setReg r v).setReg r u = s.setReg r u := by
  simp [State.setReg]

@[simp] theorem State.setReg_reg (s : State) (r : Reg) : s.setReg r (s.reg r) = s := by
  simp [State.setReg, State.reg]

/-! ### One word of a register -/

theorem operandOffset_mod_four (words : Nat) (r : Reg) (k : Nat) :
    operandOffset words r k % 4 = 0 := by
  rw [operandOffset, Config.operandOff, ← Nat.mul_assoc, Nat.mul_right_comm]
  omega

/-- In every admitted build the operand registers lie inside the window (20_memory.md R51). -/
theorem operandOffset_lt {words k : Nat} (h : words ≤ 60) (r : Reg) (hk : k < words) :
    operandOffset words r k < 0x1000 := by
  have hr : r.val * (4 * words) ≤ 15 * (4 * words) := Nat.mul_le_mul_right _ (by omega)
  rw [operandOffset, Config.operandOff]
  omega

theorem writeWord_operandOffset {s : State} (hwidth : WidthOk s) (hb : s.busy = false) (r : Reg)
    {k : Nat} (hk : k < s.words) (w : Word) :
    writeWord (operandOffset s.words r k) w s =
      .next ((), s.setReg r (setRegWord (s.reg r) k w)) := by
  rw [writeWord_eq s w (operandOffset_mod_four ..) (operandOffset_lt hwidth.2 r hk),
    hostWrite_operandOffset s r hk, writeOperand, if_neg (by simp [hb])]

theorem readWord_operandOffset {s : State} (hwidth : WidthOk s) (r : Reg) {k : Nat}
    (hk : k < s.words) :
    readWord (operandOffset s.words r k) s =
      .next (regWord (s.reg r) k, { s with reads := s.reads ++ [regWord (s.reg r) k] }) := by
  rw [readWord_eq s (operandOffset_mod_four ..) (operandOffset_lt hwidth.2 r hk), hostRead,
    readValue_operandOffset s r hk]

/-! ### LI -/

/-- Writing word `k` of `v` over a value whose lower words are `v`'s already (20_memory.md R53). -/
theorem setRegWord_regWord_testBit {u v x k : Nat}
    (h : ∀ i, u.testBit i = if i < 32 * k then v.testBit i else x.testBit i) (i : Nat) :
    (setRegWord u k (regWord v k)).testBit i =
      if i < 32 * (k + 1) then v.testBit i else x.testBit i := by
  rw [setRegWord_testBit, regWord_toNat, Nat.testBit_mod_two_pow, Nat.testBit_div_two_pow, h]
  by_cases hin : 32 * k ≤ i ∧ i < 32 * (k + 1)
  · have hlt : i - 32 * k < 32 := by omega
    simp [hin, hlt]
  · rw [if_neg hin]
    by_cases hlow : i < 32 * k
    · rw [if_pos hlow, if_pos (by omega)]
    · rw [if_neg hlow, if_neg (by omega)]

/-- The first `k` writes of LI give the register the low words of `v` and leave its high ones. -/
theorem loadWords_eq {s : State} (hwidth : WidthOk s) (hb : s.busy = false) (r : Reg) (v : Nat)
    {k : Nat} (hk : k ≤ s.words) :
    ∃ u, loadWords r v k s = .next ((), s.setReg r u) ∧
      ∀ i, u.testBit i = if i < 32 * k then v.testBit i else (s.reg r).testBit i := by
  induction k with
  | zero => exact ⟨s.reg r, by rw [State.setReg_reg]; rfl, by simp⟩
  | succ k ih =>
    obtain ⟨u, hload, hbits⟩ := ih (by omega)
    have hwrite := writeWord_operandOffset (s := s.setReg r u) hwidth hb r hk (regWord v k)
    rw [State.reg_setReg_same, State.setReg_setReg] at hwrite
    refine ⟨setRegWord u k (regWord v k), ?_, setRegWord_regWord_testBit hbits⟩
    rw [loadWords, andThen_of_next hload]
    exact hwrite

/-- `LI xr, v` is the register write (30_encoding.md R90). -/
theorem li_eq {s : State} (hwidth : WidthOk s) (hb : s.busy = false) {r : Reg} {v : Nat}
    (hfit : s.reg r < 2 ^ s.width) (hv : v < 2 ^ s.width) :
    li r v s = .next ((), s.setReg r v) := by
  obtain ⟨u, hload, hbits⟩ := loadWords_eq hwidth hb r v le_rfl
  have huv : u = v := by
    apply Nat.eq_of_testBit_eq
    intro i
    rw [hbits]
    by_cases hi : i < 32 * s.words
    · rw [if_pos hi]
    · have hpow : 2 ^ s.width ≤ 2 ^ i := Nat.pow_le_pow_right (by omega) (not_lt.mp hi)
      rw [if_neg hi, Nat.testBit_lt_two_pow (hfit.trans_le hpow),
        Nat.testBit_lt_two_pow (hv.trans_le hpow)]
  rw [li, hload, huv]

/-! ### RD -/

theorem wordsValue_append_singleton (ws : List Word) (w : Word) :
    wordsValue (ws ++ [w]) = wordsValue ws + w.toNat * 2 ^ (32 * ws.length) := by
  induction ws with
  | nil => simp [wordsValue]
  | cons u us ih =>
    rw [List.cons_append, wordsValue, ih, wordsValue, List.length_cons]
    ring

/-- The value of the first `n` words of `v` is its low `32 n` bits (20_memory.md R54). -/
theorem wordsValue_map_regWord (v n : Nat) :
    wordsValue ((List.range n).map (regWord v)) = v % 2 ^ (32 * n) := by
  rw [← sum_regWord]
  induction n with
  | zero => rfl
  | succ n ih => simp [List.range_succ, wordsValue_append_singleton, ih]

/-- The first `k` reads of RD answer the register's first `k` words and record them. -/
theorem collectWords_eq {s : State} (hwidth : WidthOk s) (r : Reg) {k : Nat} (hk : k ≤ s.words) :
    collectWords r k s = .next ((List.range k).map (regWord (s.reg r)),
      { s with reads := s.reads ++ (List.range k).map (regWord (s.reg r)) }) := by
  induction k with
  | zero => simp [collectWords, answer]
  | succ k ih =>
    rw [collectWords, andThen_of_next (ih (by omega)),
      andThen_of_next (readWord_operandOffset (by exact hwidth) r (by exact hk))]
    simp [answer, List.range_succ, State.reg]

/-- `RD xr` answers the register and changes only the record of reads (30_encoding.md R90). -/
theorem rdReg_eq {s : State} (hwidth : WidthOk s) {r : Reg} (hfit : s.reg r < 2 ^ s.width) :
    rdReg r s = .next (s.reg r,
      { s with reads := s.reads ++ (List.range s.words).map (regWord (s.reg r)) }) := by
  rw [rdReg, andThen_of_next (collectWords_eq hwidth r le_rfl), answer, wordsValue_map_regWord,
    ← State.width, Nat.mod_eq_of_lt hfit]

end Sys2Proof.Machine
end

section
/-! PROOFS. The encoding family (30_encoding.md): decoder, encoder and mask table, the illegal
words, and the pseudo-operations LI and RD. -/

namespace Sys2Proof.Machine

/-- Settles O6: the fields of a packed word are the command's own, and the decoder reads those. -/
theorem decodeOfEncode : Obligations.DecodeOfEncode := decode_encode

/-- Settles O7: a legal word's low byte and unused fields are zero, so it is the packing of what the
decoder kept. -/
theorem encodeOfDecode : Obligations.EncodeOfDecode := fun _ _ => encode_of_decode

/-- Settles O8: mask and pattern name the fields the decoder tests, and two rows that one word
matches have its `op` byte. -/
theorem decodeAgreesWithMaskTable : Obligations.DecodeAgreesWithMaskTable := by
  refine ⟨exists_decode_mnemonic_iff_match, fun row hrow row' hrow' w h h' => ?_⟩
  exact (opcodeTable_op_injective row hrow).2 row' hrow'
    ((op_of_match hrow h).trans (op_of_match hrow' h').symm)

/-- Settles O9: the complement of the legal words (`exists_decode_iff`). -/
theorem illegalWordsExactly : Obligations.IllegalWordsExactly := by
  intro w
  rw [← Bool.not_eq_false, isIllegal_eq_false_iff, exists_decode_iff]
  simp only [List.mem_cons, List.not_mem_nil, or_false]
  omega

/-- Settles O10: the encoder, which loses nothing, carries the commands onto the legal words, and
the commands are counted by their register fields. -/
theorem legalWordCount : Obligations.LegalWordCount := by
  have hlegal : (Finset.univ.filter fun w : Word => isIllegal w = false) =
      Finset.univ.image (encode ∘ Instr.equivFields.symm) := by
    ext w
    simp only [Finset.mem_filter, Finset.mem_univ, true_and, Finset.mem_image, Function.comp_apply,
      isIllegal_eq_false_iff, decode_eq_ok_iff_encode]
    exact Instr.equivFields.symm.surjective.exists
  rw [Obligations.LegalWordCount, hlegal,
    Finset.card_image_of_injective _ (encode_injective.comp Instr.equivFields.symm.injective),
    Finset.card_univ, card_commandFields]
  norm_num

/-- Settles O12: a word's bytes put together again are the word (`decodeBytes_wordBytes`). -/
theorem tableWordDecodesAsWord : Obligations.TableWordDecodesAsWord := decodeTableWord_eq_some_iff

/-- Settles O53: LI and RD are the register's write and read (`li_eq`, `rdReg_eq`). -/
theorem loadThenReadBack : Obligations.LoadThenReadBack := by
  intro s r v ⟨hwidth, hregs, _, _⟩ hb hv
  have hread := rdReg_eq (s := s.setReg r v) hwidth (r := r) (by rwa [State.reg_setReg_same])
  rw [State.reg_setReg_same] at hread
  exact ⟨li_eq hwidth hb (hregs r) hv, _, hread, rfl⟩

/-- Settles O11: the legal words are the encoder's, so they decode to what was encoded; the two
illegal ones have a field set that their format does not use. -/
theorem specWordsDecode : Obligations.SpecWordsDecode := by
  have hlegal : ∀ {w : Word} {i : Instr}, encode i = w → decode w = .ok i :=
    fun h => (decode_eq_ok_iff_encode _ _).mpr h
  exact ⟨hlegal (by decide), hlegal (by decide), hlegal (by decide), hlegal (by decide),
    hlegal (by decide), hlegal (by decide), hlegal (by decide), by decide, by decide⟩

/-- Settles O15: the completion of an illegal word reads no register (`complete_of_illegal`). -/
theorem illegalWordCompletesWithError : Obligations.IllegalWordCompletesWithError := by
  intro s w hb hw hillegal
  exact (step_before_complete s).trans (complete_of_illegal hb hw hillegal)

end Sys2Proof.Machine
end

section
/-! SUPPORT. A command's value as a function of its operands, the two multiplier commands case by
case, and the Montgomery product and the REDC listing as congruences (40_modmul.md R100, R103,
R104). -/

namespace Sys2Proof.Machine

/-! ### A command on given operand values -/

@[simp] theorem holding_reg_zero (words a b n : Nat) : (holding words a b n).reg 0 = a := rfl
@[simp] theorem holding_reg_one (words a b n : Nat) : (holding words a b n).reg 1 = b := rfl
@[simp] theorem holding_reg_two (words a b n : Nat) : (holding words a b n).reg 2 = n := rfl
@[simp] theorem holding_width (words a b n : Nat) : (holding words a b n).width = 32 * words := rfl

theorem valueOf_eq_ok {i : Instr} {words a b n v : Nat}
    (h : exec i (holding words a b n) =
      .next (normalCompletion (holding words a b n) i.dest v)) :
    valueOf i words a b n = .ok v := by
  simp [valueOf, h]

/-! ### The two commands -/

section
variable {s : State} {rn : Reg}

theorem exec_mulmod_of_modulus_zero (rd ra rb : Reg) (h : s.reg rn = 0) :
    exec (.mulmod rd ra rb rn) s = .next (errorCompletion s .modZero) := if_pos h

theorem exec_mulmod_of_modulus_ne_zero (rd ra rb : Reg) (h : s.reg rn ≠ 0) :
    exec (.mulmod rd ra rb rn) s =
      .next (normalCompletion s rd (s.reg ra * s.reg rb % s.reg rn)) := if_neg h

theorem exec_montmul_of_modulus_zero (rd ra rb : Reg) (h : s.reg rn = 0) :
    exec (.montmul rd ra rb rn) s = .next (errorCompletion s .modZero) := if_pos h

theorem exec_montmul_of_modulus_even (rd ra rb : Reg) (h0 : s.reg rn ≠ 0)
    (heven : s.reg rn % 2 = 0) :
    exec (.montmul rd ra rb rn) s = .next (errorCompletion s .modEven) :=
  (if_neg h0).trans (if_pos heven)

theorem exec_montmul_of_modulus_odd (rd ra rb : Reg) (hodd : s.reg rn % 2 = 1) :
    exec (.montmul rd ra rb rn) s =
      .next (normalCompletion s rd (montMul s.width (s.reg ra) (s.reg rb) (s.reg rn))) :=
  (if_neg (by omega)).trans (if_neg (by omega))

end

theorem mulmodOf_eq (words a b : Nat) {n : Nat} (hn : n ≠ 0) :
    mulmodOf words a b n = .ok (a * b % n) :=
  valueOf_eq_ok (exec_mulmod_of_modulus_ne_zero 3 0 1 hn)

theorem montmulOf_eq (words a b : Nat) {n : Nat} (hn : n % 2 = 1) :
    montmulOf words a b n = .ok (montMul (32 * words) a b n) :=
  valueOf_eq_ok (exec_montmul_of_modulus_odd 3 0 1 hn)

/-! ### The Montgomery product -/

theorem coprime_two_pow_of_odd (w : Nat) {n : Nat} (hn : n % 2 = 1) : Nat.Coprime n (2 ^ w) :=
  Nat.Coprime.pow_right w (Nat.coprime_two_right.mpr (Nat.odd_iff.mpr hn))

theorem montMul_modEq (w a b : Nat) {n : Nat} (hn : n % 2 = 1) :
    montMul w a b n * 2 ^ w ≡ a * b [MOD n] := (montMul_spec w a b hn).2

/-- The Montgomery product is the only `t` below the modulus with `t · 2^w ≡ a · b`, since the radix
can be cancelled modulo an odd number (40_modmul.md R103). -/
theorem montMul_eq_of_modEq {w a b n t : Nat} (hn : n % 2 = 1) (ht : t < n)
    (h : t * 2 ^ w ≡ a * b [MOD n]) : montMul w a b n = t := by
  have hradix : montMul w a b n * 2 ^ w ≡ t * 2 ^ w [MOD n] := (montMul_modEq w a b hn).trans h.symm
  exact (hradix.cancel_right_of_coprime (coprime_two_pow_of_odd w hn)).eq_of_lt_of_lt
    (montMul_spec w a b hn).1 ht

theorem montMul_zero_left (w b n : Nat) : montMul w 0 b n = 0 := by simp [montMul]

theorem montMul_zero_right (w a n : Nat) : montMul w a 0 n = 0 := by simp [montMul]

theorem montMul_modulus_one (w a b : Nat) : montMul w a b 1 = 0 := Nat.mod_one _

theorem montMul_one_one (w : Nat) {n : Nat} (hn : n % 2 = 1) : montMul w 1 1 n = radixInv w n := by
  rw [montMul, one_mul, one_mul, Nat.mod_eq_of_lt (radixInv_spec w hn).1]

/-! ### Montgomery form (40_modmul.md R105) -/

/-- `R2 = (2^w)^2 mod n` takes a Montgomery product to the plain one. -/
theorem montMul_montMul_radix_sq (w a b : Nat) {n : Nat} (hn : n % 2 = 1) :
    montMul w (montMul w a b n) ((2 ^ w) ^ 2 % n) n = a * b % n := by
  refine montMul_eq_of_modEq hn (Nat.mod_lt _ (by omega)) ?_
  calc a * b % n * 2 ^ w
      ≡ montMul w a b n * 2 ^ w * 2 ^ w [MOD n] :=
        ((Nat.mod_modEq _ _).trans (montMul_modEq w a b hn).symm).mul_right _
    _ = montMul w a b n * (2 ^ w) ^ 2 := by ring
    _ ≡ montMul w a b n * ((2 ^ w) ^ 2 % n) [MOD n] := (Nat.mod_modEq _ _).symm.mul_left _

/-- The Montgomery product of two Montgomery forms is the Montgomery form of the product. -/
theorem montMul_montgomeryForms (w a b : Nat) {n : Nat} (hn : n % 2 = 1) :
    montMul w (a * 2 ^ w % n) (b * 2 ^ w % n) n = a * b % n * 2 ^ w % n := by
  refine montMul_eq_of_modEq hn (Nat.mod_lt _ (by omega)) ?_
  calc a * b % n * 2 ^ w % n * 2 ^ w
      ≡ a * b * 2 ^ w * 2 ^ w [MOD n] :=
        ((Nat.mod_modEq _ _).trans ((Nat.mod_modEq _ _).mul_right _)).mul_right _
    _ = a * 2 ^ w * (b * 2 ^ w) := by ring
    _ ≡ a * 2 ^ w % n * (b * 2 ^ w % n) [MOD n] :=
        (Nat.mod_modEq _ _).symm.mul (Nat.mod_modEq _ _).symm

/-- The Montgomery product of a Montgomery form and 1 leaves Montgomery form. -/
theorem montMul_montgomeryForm_one (w a : Nat) {n : Nat} (hn : n % 2 = 1) :
    montMul w (a * 2 ^ w % n) 1 n = a % n := by
  refine montMul_eq_of_modEq hn (Nat.mod_lt _ (by omega)) ?_
  rw [mul_one]
  exact ((Nat.mod_modEq _ _).mul_right _).trans (Nat.mod_modEq _ _).symm

/-! ### The REDC listing -/

/-- The constant `n'` of 40_modmul.md R104. -/
def redcConstant (w n : Nat) : Nat := (2 ^ w - (modInv? n (2 ^ w)).getD 0) % 2 ^ w

/-- The quotient `t` of 40_modmul.md R104, before its final subtraction, for the product `T`. -/
def redcQuotient (w n T : Nat) : Nat := (T + T % 2 ^ w * redcConstant w n % 2 ^ w * n) / 2 ^ w

theorem redc_eq (w a b n : Nat) :
    redc w a b n = if redcQuotient w n (a * b) ≥ n then redcQuotient w n (a * b) - n
      else redcQuotient w n (a * b) := rfl

/-- `n'` is the negative of the inverse of `n` modulo the radix. -/
theorem redcConstant_spec (w : Nat) {n : Nat} (hn : n % 2 = 1) :
    1 + redcConstant w n * n ≡ 0 [MOD 2 ^ w] := by
  cases hinv : modInv? n (2 ^ w) with
  | none =>
    rcases (modInv?_eq_none_iff _ _).mp hinv with hzero | hgcd
    · exact absurd hzero (Nat.two_pow_pos w).ne'
    · exact absurd (coprime_two_pow_of_odd w hn) hgcd
  | some d =>
    obtain ⟨hlt, hd⟩ := modInv?_spec hinv
    have hconst : redcConstant w n ≡ 2 ^ w - d [MOD 2 ^ w] := by
      rw [redcConstant, hinv]
      exact Nat.mod_modEq _ _
    calc 1 + redcConstant w n * n
        ≡ n * d + (2 ^ w - d) * n [MOD 2 ^ w] := Nat.ModEq.add hd.symm (hconst.mul_right n)
      _ = 2 ^ w * n := by rw [mul_comm n d, ← add_mul, Nat.add_sub_cancel' hlt.le]
      _ ≡ 0 [MOD 2 ^ w] := Nat.modEq_zero_iff_dvd.mpr (Nat.dvd_mul_right _ _)

/-- The division by the radix in the listing is exact. -/
theorem redcQuotient_mul (w T : Nat) {n : Nat} (hn : n % 2 = 1) :
    redcQuotient w n T * 2 ^ w = T + T % 2 ^ w * redcConstant w n % 2 ^ w * n := by
  refine Nat.div_mul_cancel (Nat.modEq_zero_iff_dvd.mp ?_)
  have hm : T % 2 ^ w * redcConstant w n % 2 ^ w ≡ T * redcConstant w n [MOD 2 ^ w] :=
    (Nat.mod_modEq _ _).trans ((Nat.mod_modEq _ _).mul_right _)
  calc T + T % 2 ^ w * redcConstant w n % 2 ^ w * n
      ≡ T + T * redcConstant w n * n [MOD 2 ^ w] := (hm.mul_right n).add_left T
    _ = T * (1 + redcConstant w n * n) := by ring
    _ ≡ 0 [MOD 2 ^ w] := (redcConstant_spec w hn).mul_left T

theorem redcQuotient_modEq (w T : Nat) {n : Nat} (hn : n % 2 = 1) :
    redcQuotient w n T * 2 ^ w ≡ T [MOD n] := by
  rw [redcQuotient_mul w T hn]
  exact Nat.add_mul_mod_self_right _ _ _

/-- One subtraction is enough to reduce the quotient (40_modmul.md R104). -/
theorem redcQuotient_lt {w T n : Nat} (hT : T < 2 ^ w * n) : redcQuotient w n T < 2 * n := by
  have hm : T % 2 ^ w * redcConstant w n % 2 ^ w * n ≤ 2 ^ w * n :=
    Nat.mul_le_mul_right n (Nat.mod_lt _ (Nat.two_pow_pos w)).le
  rw [redcQuotient, Nat.div_lt_iff_lt_mul (Nat.two_pow_pos w)]
  linarith

/-- The listing gives the Montgomery product (40_modmul.md R104). -/
theorem montMul_eq_redc {w a b n : Nat} (hn : n % 2 = 1) (hfit : n < 2 ^ w) (ha : a < n)
    (hb : b < n) : montMul w a b n = redc w a b n := by
  have hT : a * b < 2 ^ w * n := Nat.mul_lt_mul'' (ha.trans hfit) hb
  have hlt := redcQuotient_lt hT
  have hmod := redcQuotient_modEq w (a * b) hn
  rw [redc_eq]
  split_ifs with hge
  · have hsub : redcQuotient w n (a * b) - n ≡ redcQuotient w n (a * b) [MOD n] :=
      (Nat.mod_eq_sub_mod hge).symm
    exact montMul_eq_of_modEq hn (by omega) ((hsub.mul_right _).trans hmod)
  · exact montMul_eq_of_modEq hn (by omega) hmod

end Sys2Proof.Machine
end

section
/-! PROOFS. The multiplier family (40_modmul.md): MULMOD, MONTMUL, and Montgomery form. -/

namespace Sys2Proof.Machine

/-- Settles O25: the word is the encoder's, the two ends are the two branches of the command, and
the worked example is `65 · 65 mod 3233`. -/
theorem mulmodResult : Obligations.MulmodResult := by
  refine ⟨fun rd ra rb rn => decode_encode (.mulmod rd ra rb rn), fun s rd ra rb rn =>
    ⟨exec_mulmod_of_modulus_zero rd ra rb, exec_mulmod_of_modulus_ne_zero rd ra rb⟩,
    fun s h1 h2 => ⟨decode_encode (.mulmod 3 1 1 2), ?_⟩⟩
  have hexec := exec_mulmod_of_modulus_ne_zero (s := s) (rn := 2) 3 1 1 (by omega)
  rwa [h1, h2] at hexec

/-- Settles O26: the laws are those of the product reduced modulo `n` (`mulmodOf_eq`). -/
theorem mulmodLaws : Obligations.MulmodLaws := by
  intro words a b n hn
  have hvalue (x y : Nat) : mulmodOf words x y n = .ok (x * y % n) :=
    mulmodOf_eq words x y (by omega)
  refine ⟨a * b % n, hvalue a b, Nat.mod_lt _ hn, ?_, ?_, ?_⟩
  · rw [hvalue, mul_comm]
  · rw [hvalue, ← Nat.mul_mod]
  · rw [hvalue, mul_one]

/-- Settles O27: for an odd modulus the value is `montMul`, which is `a · b · Rinv` reduced by
definition and the only solution of R103's congruence (`montMul_eq_of_modEq`). The worked values
for 32 and 64 bits are shown to be such solutions. -/
theorem montmulResult : Obligations.MontmulResult := by
  refine ⟨fun rd ra rb rn => decode_encode (.montmul rd ra rb rn), fun s rd ra rb rn =>
    ⟨exec_montmul_of_modulus_zero rd ra rb, exec_montmul_of_modulus_even rd ra rb,
      fun hodd => ⟨?rinv, ?unique⟩⟩, ?corners, ?width, ?worked⟩
  case rinv =>
    obtain ⟨hlt, hinv⟩ := radixInv_spec s.width hodd
    exact ⟨_, hlt, hinv, exec_montmul_of_modulus_odd rd ra rb hodd⟩
  case unique =>
    intro t ht hcong
    rw [exec_montmul_of_modulus_odd rd ra rb hodd, montMul_eq_of_modEq hodd ht hcong]
    rfl
  case corners =>
    intro words a b n hodd
    obtain ⟨hlt, hinv⟩ := radixInv_spec (32 * words) hodd
    refine ⟨?_, ?_, ?_, radixInv (32 * words) n, hlt, hinv, ?_⟩
    · rw [montmulOf_eq words a b rfl, montMul_modulus_one]
    · rw [montmulOf_eq words 0 b hodd, montMul_zero_left]
    · rw [montmulOf_eq words a 0 hodd, montMul_zero_right]
    · rw [montmulOf_eq words 1 1 hodd, montMul_one_one _ hodd]
  case width =>
    rw [montmulOf_eq 1 65 65 rfl, montmulOf_eq 2 65 65 rfl,
      montMul_eq_of_modEq (t := 2131) rfl (by decide) (by decide),
      montMul_eq_of_modEq (t := 794) rfl (by decide) (by decide)]
    decide
  case worked =>
    intro s hw h1 h2
    refine ⟨decode_encode (.montmul 3 1 1 2), ?_⟩
    rw [exec_montmul_of_modulus_odd 3 1 1 (by omega), State.width, hw, h1, h2,
      montMul_eq_of_modEq (t := 794) rfl (by decide) (by decide)]
    rfl

/-- Settles O28: the three relations of the Montgomery product, read on the commands' values. -/
theorem montgomeryRelations : Obligations.MontgomeryRelations := by
  intro words a b n hn
  have hmont (x y : Nat) := montmulOf_eq words x y hn
  have hmul := mulmodOf_eq words a b (n := n) (by omega)
  refine ⟨⟨_, a * b % n, hmont a b, ?_, hmul⟩, ⟨a * b % n, hmul, ?_⟩, ?_⟩
  · rw [hmont, montMul_montMul_radix_sq _ a b hn]
  · rw [hmont, montMul_montgomeryForms _ a b hn]
  · rw [hmont, montMul_montgomeryForm_one _ a hn]

/-- Settles O29: the listing's value is below the modulus and solves MONTMUL's congruence
(`montMul_eq_redc`). -/
theorem redcComputesMontmul : Obligations.RedcComputesMontmul := by
  intro words a b n hn hfit ha hb
  rw [montmulOf_eq words a b hn, montMul_eq_redc hn hfit ha hb]

end Sys2Proof.Machine
end

section
/-! SUPPORT. The two exponentiation commands case by case, STATUS after an error, and powers whose
exponent is 1 modulo `(p-1)(q-1)` (41_modexp.md R120, R123, R124). -/

namespace Sys2Proof.Machine

/-! ### The two commands -/

section
variable {s : State} {rn : Reg}

theorem exec_modexp_of_modulus_zero (rd ra rb : Reg) (h : s.reg rn = 0) :
    exec (.modexp rd ra rb rn) s = .next (errorCompletion s .modZero) := if_pos h

theorem exec_modexp_of_modulus_ne_zero (rd ra rb : Reg) (h : s.reg rn ≠ 0) :
    exec (.modexp rd ra rb rn) s =
      .next (normalCompletion s rd (s.reg ra ^ s.reg rb % s.reg rn)) := by
  rw [← powMod_eq _ _ (Nat.pos_of_ne_zero h)]
  exact if_neg h

theorem exec_modexpc_of_modulus_le (rd rb : Reg) {ra : Reg} (h : s.reg rn ≤ s.reg ra) :
    exec (.modexpc rd ra rb rn) s = .next (errorCompletion s .msgTooLarge) := if_pos h

/-- Inside its domain the checked command is the unchecked one: the check has excluded modulus 0. -/
theorem exec_modexpc_eq_modexp (rd rb : Reg) {ra : Reg} (h : s.reg ra < s.reg rn) :
    exec (.modexpc rd ra rb rn) s = exec (.modexp rd ra rb rn) s :=
  (if_neg (by omega)).trans (if_neg (by omega)).symm

theorem exec_modexpc_of_lt_modulus (rd rb : Reg) {ra : Reg} (h : s.reg ra < s.reg rn) :
    exec (.modexpc rd ra rb rn) s =
      .next (normalCompletion s rd (s.reg ra ^ s.reg rb % s.reg rn)) :=
  (exec_modexpc_eq_modexp rd rb h).trans (exec_modexp_of_modulus_ne_zero rd ra rb (by omega))

end

theorem modexpOf_eq (words c d : Nat) {n : Nat} (hn : n ≠ 0) :
    modexpOf words c d n = .ok (c ^ d % n) :=
  valueOf_eq_ok (exec_modexp_of_modulus_ne_zero 3 0 1 hn)

/-- STATUS after an error: DONE, ERR, the old OVR and the code (60_exceptions.md R201). -/
theorem statusWord_errorCompletion (s : State) (c : ECode) :
    statusWord (errorCompletion s c) = BitVec.ofNat 32 (6 + 8 * s.ovr.toNat + 16 * c.code) := rfl

/-! ### Powers with an exponent that is 1 modulo `(p-1)(q-1)` -/

theorem pow_modEq_self_of_prime {p j : Nat} (hp : Nat.Prime p) (hpos : 0 < j)
    (hj : j ≡ 1 [MOD p - 1]) (m : Nat) : m ^ j ≡ m [MOD p] := by
  have hpow := Int.ModEq.pow_eq_pow hp hj.symm.dvd' hpos one_pos m
  rw [pow_one] at hpow
  exact_mod_cast hpow

/-- `(p-1)(q-1)` is 1 only for `p = q = 2`; modulo any other such product 0 is not 1. -/
theorem pos_of_modEq_one {p q j : Nat} (hne : p ≠ q) (hj : j ≡ 1 [MOD (p - 1) * (q - 1)]) :
    0 < j := by
  rw [Nat.pos_iff_ne_zero]
  rintro rfl
  have hone : (p - 1) * (q - 1) = 1 := Nat.dvd_one.mp hj.dvd'
  obtain ⟨hp1, hq1⟩ := mul_eq_one.mp hone
  omega

/-- The RSA identity, for every `m` and not only for those coprime to the modulus. -/
theorem pow_modEq_self_of_prime_mul_prime {p q j : Nat} (hp : Nat.Prime p) (hq : Nat.Prime q)
    (hne : p ≠ q) (hj : j ≡ 1 [MOD (p - 1) * (q - 1)]) (m : Nat) : m ^ j ≡ m [MOD p * q] := by
  have hpos := pos_of_modEq_one hne hj
  exact (Nat.modEq_and_modEq_iff_modEq_mul ((Nat.coprime_primes hp hq).mpr hne)).mp
    ⟨pow_modEq_self_of_prime hp hpos hj.of_mul_right m,
      pow_modEq_self_of_prime hq hpos hj.of_mul_left m⟩

/-- Encryption then decryption of a message below the modulus (41_modexp.md R124). -/
theorem rsa_pow_pow_mod {p q e d m : Nat} (hp : Nat.Prime p) (hq : Nat.Prime q) (hne : p ≠ q)
    (hkeys : e * d ≡ 1 [MOD (p - 1) * (q - 1)]) (hm : m < p * q) :
    (m ^ e % (p * q)) ^ d % (p * q) = m := by
  calc (m ^ e % (p * q)) ^ d % (p * q)
      = m ^ (e * d) % (p * q) := by rw [← Nat.pow_mod, ← pow_mul]
    _ = m % (p * q) := pow_modEq_self_of_prime_mul_prime hp hq hne hkeys m
    _ = m := Nat.mod_eq_of_lt hm

end Sys2Proof.Machine
end

section
/-! PROOFS. The exponentiation family (41_modexp.md): MODEXP, MODEXPC, and the round trip. -/

namespace Sys2Proof.Machine

/-- Settles O30: the word is the encoder's, the two ends are the two branches of the command, and
the worked example is `2790 ^ 2753 mod 3233`. -/
theorem modexpResult : Obligations.ModexpResult := by
  refine ⟨fun rd ra rb rn => decode_encode (.modexp rd ra rb rn), fun s rd ra rb rn =>
    ⟨exec_modexp_of_modulus_zero rd ra rb, exec_modexp_of_modulus_ne_zero rd ra rb⟩,
    fun s h0 h1 h2 => ⟨decode_encode (.modexp 3 0 1 2), ?_⟩⟩
  have hpow : 2790 ^ 2753 % 3233 = 65 :=
    (powMod_eq 2790 2753 (n := 3233) (by omega)).symm.trans (by decide)
  have hexec := exec_modexp_of_modulus_ne_zero (s := s) (rn := 2) 3 0 1 (by omega)
  rwa [h0, h1, h2, hpow] at hexec

/-- Settles O31: the laws are those of the exact power reduced modulo `n` (`modexpOf_eq`). The sum
law needs no bound on the exponents. -/
theorem modexpLaws : Obligations.ModexpLaws := by
  intro words c d n hn
  have hpow (x y : Nat) : modexpOf words x y n = .ok (x ^ y % n) := modexpOf_eq words x y (by omega)
  have hmul (x y : Nat) : mulmodOf words x y n = .ok (x * y % n) := mulmodOf_eq words x y (by omega)
  refine ⟨c ^ d % n, hpow c d, Nat.mod_lt _ hn, ?base, ?sum, ?square⟩
  case base => rw [hpow, ← Nat.pow_mod]
  case sum =>
    intro d1 d2 _
    refine ⟨_, _, hpow c d1, hpow c d2, ?_⟩
    rw [hpow, hmul, pow_add, Nat.mul_mod]
  case square => rw [hpow, hmul, pow_two]

/-- Settles O32: both commands write `x ^ 0 mod n`, which is `1 mod n`. -/
theorem exponentZeroGivesOne : Obligations.ExponentZeroGivesOne := by
  intro s rd ra rb rn hexp
  have hunchecked (hn : s.reg rn ≠ 0) :
      exec (.modexp rd ra rb rn) s = .next (normalCompletion s rd (1 % s.reg rn)) := by
    rw [exec_modexp_of_modulus_ne_zero rd ra rb hn, hexp, pow_zero]
  have hchecked (h : s.reg ra < s.reg rn) := exec_modexpc_eq_modexp rd rb h
  refine ⟨fun hone => ?_, fun htwo => ?_⟩
  · have hexec := hunchecked (by omega)
    rw [hone, Nat.mod_one] at hexec
    exact ⟨hexec, fun h => (hchecked (hone ▸ h)).trans hexec⟩
  · have hexec := hunchecked (by omega)
    rw [Nat.mod_eq_of_lt htwo] at hexec
    exact ⟨hexec, fun h => (hchecked h).trans hexec⟩

/-- Settles O33: the word is the encoder's, the two ends are the two sides of the domain check, and
the worked examples are `65 ^ 17 mod 3233` and STATUS after the error. -/
theorem modexpcResult : Obligations.ModexpcResult := by
  refine ⟨fun rd ra rb rn => decode_encode (.modexpc rd ra rb rn), fun s rd ra rb rn =>
    ⟨exec_modexpc_of_modulus_le rd rb, fun h =>
      ⟨exec_modexpc_of_lt_modulus rd rb h, exec_modexpc_eq_modexp rd rb h⟩⟩,
    decode_encode (.modexpc 3 0 1 2),
    fun s h1 h2 => ⟨fun h0 => ?accepted, fun h0 hovr => ?tooLarge⟩⟩
  case accepted =>
    have hpow : 65 ^ 17 % 3233 = 2790 := by norm_num
    have hexec := exec_modexpc_of_lt_modulus (s := s) (rn := 2) (ra := 0) 3 1 (by omega)
    rwa [h0, h1, h2, hpow] at hexec
  case tooLarge =>
    refine ⟨_, exec_modexpc_of_modulus_le 3 1 (by omega), ?_, rfl⟩
    rw [readValue_status, statusWord_errorCompletion, hovr]
    rfl

/-- Settles O34: the second command reads the first one's `m ^ e mod n` and the untouched `d` and
`n`, so it writes `(m ^ e mod n) ^ d mod n`, which is `m` for a key pair (`rsa_pow_pow_mod`). -/
theorem rsaRoundTrip : Obligations.RsaRoundTrip := by
  intro s p q rc ro rm re rd rn hp hq hne hmodulus hkeys hmsg hrd hrn
  have hkeep {r : Reg} (h : rc ≠ r) (v : Nat) : (normalCompletion s rc v).reg r = s.reg r :=
    normalCompletion_reg_ne s h.symm v
  refine ⟨_, _, exec_modexpc_of_lt_modulus rc re hmsg, rfl, ?below,
    exec_modexp_of_modulus_ne_zero ro rc rd ?modulus, rfl, ?plain⟩
  case below =>
    rw [normalCompletion_reg_same]
    exact Nat.mod_lt _ (by omega)
  case modulus =>
    rw [hkeep hrn]
    omega
  case plain =>
    rw [normalCompletion_reg_same, normalCompletion_reg_same, hkeep hrd, hkeep hrn, hmodulus]
    exact rsa_pow_pow_mod hp hq hne hkeys (hmodulus ▸ hmsg)

end Sys2Proof.Machine
end

section
/-! SUPPORT. The inverse as the one solution of its congruence, and the inverse command case by case
(42_modinv.md R140, R141). -/

namespace Sys2Proof.Machine

/-! ### The inverse -/

theorem coprime_of_mul_mod_eq_one_mod {e phi d : Nat} (h : e * d % phi = 1 % phi) :
    Nat.Coprime e phi := by
  have hgcd : Nat.gcd (e * d) phi = Nat.gcd 1 phi := Nat.ModEq.gcd_eq h
  rw [Nat.gcd_one_left] at hgcd
  exact Nat.Coprime.coprime_mul_right hgcd

/-- The inverse is the one solution of R140's congruence below the modulus: a solution makes `e`
coprime to `phi`, and two solutions are equal. -/
theorem modInv?_eq_some_iff (e phi d : Nat) :
    modInv? e phi = some d ↔ d < phi ∧ e * d % phi = 1 % phi := by
  refine ⟨modInv?_spec, fun ⟨hlt, hcong⟩ => ?_⟩
  cases hinv : modInv? e phi with
  | none =>
    rcases (modInv?_eq_none_iff e phi).mp hinv with hzero | hgcd
    · omega
    · exact absurd (coprime_of_mul_mod_eq_one_mod hcong) hgcd
  | some d' =>
    obtain ⟨hlt', hcong'⟩ := modInv?_spec hinv
    rw [inverse_unique hlt' hlt hcong' hcong]

theorem exists_modInv?_eq_some {e phi : Nat} (hphi : phi ≠ 0) (hgcd : Nat.gcd e phi = 1) :
    ∃ d, modInv? e phi = some d := by
  rw [← Option.ne_none_iff_exists', Ne, modInv?_eq_none_iff]
  tauto

/-- The operand enters only through its residue (42_modinv.md R144). -/
theorem modInv?_mod (e phi : Nat) : modInv? (e % phi) phi = modInv? e phi := by
  rw [modInv?, modInv?, Nat.mod_mod]

theorem sub_one_mul_sub_one_mod {n : Nat} (hn : 0 < n) : (n - 1) * (n - 1) % n = 1 % n := by
  obtain ⟨k, rfl⟩ := Nat.exists_eq_succ_of_ne_zero hn.ne'
  exact Int.natCast_modEq_iff.mp (Int.modEq_iff_dvd.mpr ⟨1 - k, by push_cast; ring⟩)

/-! ### The command -/

section
variable {s : State} {ra rn : Reg}

theorem exec_modinv_of_none (rd : Reg) (h : modInv? (s.reg ra) (s.reg rn) = none) :
    exec (.modinv rd ra rn) s = .next (errorCompletion s .invUndefined) := by
  simp [exec, execModinv, raiseError, h]

theorem exec_modinv_of_some (rd : Reg) {d : Nat} (h : modInv? (s.reg ra) (s.reg rn) = some d) :
    exec (.modinv rd ra rn) s = .next (normalCompletion s rd d) := by
  simp [exec, execModinv, finish, h]

end

theorem valueOf_eq_error {i : Instr} {words a b n : Nat} {c : ECode}
    (h : exec i (holding words a b n) = .next (errorCompletion (holding words a b n) c)) :
    valueOf i words a b n = .error c := by
  simp [valueOf, h]

theorem modinvOf_eq (words e phi : Nat) :
    modinvOf words e phi = (modInv? e phi).elim (.error .invUndefined) .ok := by
  cases hinv : modInv? e phi with
  | none => exact valueOf_eq_error (exec_modinv_of_none 3 hinv)
  | some d => exact valueOf_eq_ok (exec_modinv_of_some 3 hinv)

theorem modinvOf_eq_error_iff (words e phi : Nat) :
    modinvOf words e phi = .error .invUndefined ↔ phi = 0 ∨ Nat.gcd e phi ≠ 1 := by
  rw [modinvOf_eq, ← modInv?_eq_none_iff]
  cases modInv? e phi <;> simp

theorem modinvOf_eq_ok_iff (words e phi d : Nat) :
    modinvOf words e phi = .ok d ↔ d < phi ∧ e * d % phi = 1 % phi := by
  rw [modinvOf_eq, ← modInv?_eq_some_iff]
  cases modInv? e phi <;> simp

end Sys2Proof.Machine
end

section
/-! PROOFS. The modular inverse (42_modinv.md): its result, its corner cases, its two uses. -/

namespace Sys2Proof.Machine

/-- Settles O35: the word is the encoder's, the two ends are the two answers of the inverse, and the
worked examples are `17 · 2753 mod 3120 = 1` and STATUS after the error. -/
theorem modinvResult : Obligations.ModinvResult := by
  refine ⟨fun rd ra rn => decode_encode (.modinv rd ra rn), fun s rd ra rn =>
    ⟨fun h => exec_modinv_of_none rd ((modInv?_eq_none_iff _ _).mpr h), fun hphi hgcd => ?inverse⟩,
    decode_encode (.modinv 3 1 2), fun s => ⟨fun h1 h2 => ?key, fun h1 h2 hovr => ?undefined⟩⟩
  case inverse =>
    obtain ⟨d, hinv⟩ := exists_modInv?_eq_some hphi hgcd
    obtain ⟨hlt, hcong⟩ := modInv?_spec hinv
    exact ⟨d, hlt, hcong, fun d' hlt' hcong' => inverse_unique hlt' hlt hcong' hcong,
      exec_modinv_of_some rd hinv⟩
  case key =>
    apply exec_modinv_of_some
    rw [h1, h2, modInv?_eq_some_iff]
    decide
  case undefined =>
    have hnone : modInv? (s.reg 1) (s.reg 2) = none := by
      rw [h1, h2, modInv?_eq_none_iff]
      decide
    refine ⟨_, exec_modinv_of_none 3 hnone, ?_⟩
    rw [readValue_status, statusWord_errorCompletion, hovr]
    rfl

/-- Settles O36: each row is a gcd that is not 1 or a value shown to solve R140's congruence. -/
theorem modinvCornerCases : Obligations.ModinvCornerCases := by
  intro words e phi
  refine ⟨?zero, ?one, fun hphi => ⟨?eZero, ?eOne, ?ePred⟩, fun _ _ => ?residue, ?_, ?_, ?_⟩
  case zero => exact (modinvOf_eq_error_iff ..).mpr (.inl rfl)
  case one => exact (modinvOf_eq_ok_iff ..).mpr ⟨one_pos, by rw [Nat.mod_one]⟩
  case eZero =>
    refine (modinvOf_eq_error_iff ..).mpr (.inr ?_)
    rw [Nat.gcd_zero_left]
    omega
  case eOne => exact (modinvOf_eq_ok_iff ..).mpr ⟨hphi, rfl⟩
  case ePred =>
    exact (modinvOf_eq_ok_iff ..).mpr ⟨by omega, sub_one_mul_sub_one_mod (by omega)⟩
  case residue => rw [modinvOf_eq, modinvOf_eq, modInv?_mod]
  all_goals exact (modinvOf_eq_error_iff ..).mpr (.inr (by decide))

/-- Settles O37: a modulus that is not 0 leaves the gcd alone to decide, and R140's congruence is
what MULMOD computes. -/
theorem modinvTestsAndInverts : Obligations.ModinvTestsAndInverts := by
  intro words e phi hphi
  have hne : phi ≠ 0 := by omega
  refine ⟨(modinvOf_eq_error_iff ..).trans (or_iff_right hne), fun d hd => ?_⟩
  obtain ⟨_, hcong⟩ := (modinvOf_eq_ok_iff ..).mp hd
  rw [mulmodOf_eq words e d hne, hcong]

end Sys2Proof.Machine
end

section
/-! SUPPORT. The verdict of PRIMETEST case by case, and that it is primality (43_primetest.md R160,
R161). -/

namespace Sys2Proof.Machine

/-! ### The verdict -/

theorem isPrime_of_lt_two {n : Nat} (h : n < 2) : isPrime n = false := if_pos h

theorem isPrime_of_even {n : Nat} (hn : 2 < n) (heven : n % 2 = 0) : isPrime n = false := by
  rw [isPrime, if_neg (by omega), if_neg (by omega), if_pos heven]

theorem isPrime_of_odd {n : Nat} (hn : 2 < n) (hodd : n % 2 = 1) :
    isPrime n = noOddDivisor n n 3 := by
  rw [isPrime, if_neg (by omega), if_neg (by omega), if_neg (by omega)]

/-- The loop's bound `j * j ≤ n` is R160's inclusive bound `j ≤ ⌊√n⌋`. -/
theorem isPrime_eq_true_iff_of_odd {n : Nat} (hn : 2 < n) (hodd : n % 2 = 1) :
    isPrime n = true ↔ ¬ ∃ i, i % 2 = 1 ∧ 3 ≤ i ∧ i ≤ Nat.sqrt n ∧ n % i = 0 := by
  rw [isPrime_of_odd hn hodd, noOddDivisor_three_iff]
  constructor
  · rintro hloop ⟨i, hi, hthree, hroot, hdvd⟩
    exact hloop i hthree hi (Nat.le_sqrt.mp hroot) hdvd
  · intro hnone j hthree hj hroot hdvd
    exact hnone ⟨j, hj, hthree, Nat.le_sqrt.mpr hroot, hdvd⟩

/-- Every divisor of an odd number is odd, so the odd candidates miss none. -/
theorem prime_iff_no_odd_divisor {n : Nat} (hn : 2 < n) (hodd : n % 2 = 1) :
    Nat.Prime n ↔ ¬ ∃ i, i % 2 = 1 ∧ 3 ≤ i ∧ i ≤ Nat.sqrt n ∧ n % i = 0 := by
  rw [Nat.prime_def_le_sqrt]
  constructor
  · rintro ⟨_, hprime⟩ ⟨i, _, hthree, hroot, hdvd⟩
    exact hprime i (by omega) hroot (Nat.dvd_of_mod_eq_zero hdvd)
  · refine fun hnone => ⟨hn.le, fun m htwo hroot hdvd => ?_⟩
    have hm : m % 2 = 1 := Nat.odd_iff.mp ((Nat.odd_iff.mpr hodd).of_dvd_nat hdvd)
    exact hnone ⟨m, hm, by omega, hroot, Nat.mod_eq_zero_of_dvd hdvd⟩

theorem isPrime_eq_true_iff (n : Nat) : isPrime n = true ↔ Nat.Prime n := by
  rcases Nat.lt_trichotomy n 2 with hlt | rfl | hgt
  · rw [isPrime_of_lt_two hlt]
    exact iff_of_false Bool.false_ne_true fun hprime => hprime.two_le.not_gt hlt
  · exact iff_of_true rfl Nat.prime_two
  · rcases Nat.mod_two_eq_zero_or_one n with heven | hodd
    · rw [isPrime_of_even hgt heven]
      refine iff_of_false Bool.false_ne_true fun hprime => ?_
      have := hprime.eq_two_or_odd
      omega
    · rw [isPrime_eq_true_iff_of_odd hgt hodd, prime_iff_no_odd_divisor hgt hodd]

/-! ### The command -/

section
variable {s : State} {ra : Reg}

theorem exec_primetest_of_isPrime (rd : Reg) (h : isPrime (s.reg ra) = true) :
    exec (.primetest rd ra) s = .next (normalCompletion s rd 1) := by
  simp [exec, execPrimetest, finish, h]

theorem exec_primetest_of_not_isPrime (rd : Reg) (h : isPrime (s.reg ra) = false) :
    exec (.primetest rd ra) s = .next (normalCompletion s rd 0) := by
  simp [exec, execPrimetest, finish, h]

end

end Sys2Proof.Machine
end

section
/-! PROOFS. The prime candidate tester (43_primetest.md): its result, and its verdict as primality. -/

namespace Sys2Proof.Machine

/-- Settles O38: the word is the encoder's, each end is a branch of the verdict, and the worked
examples are verdicts of the loop, which finds 7 for 91. -/
theorem primetestResult : Obligations.PrimetestResult := by
  refine ⟨fun rd ra => decode_encode (.primetest rd ra), fun s rd ra =>
    ⟨fun hlt => ?belowTwo, fun htwo => ?two, fun hgt heven => ?even, fun hgt hodd hdivisor => ?divisor,
      fun hgt hodd hnone => ?noDivisor⟩, decode_encode (.primetest 1 0),
    fun s => ⟨fun h97 => ?prime97, fun h91 => ?composite91⟩⟩
  case belowTwo => exact exec_primetest_of_not_isPrime rd (isPrime_of_lt_two hlt)
  case two => exact exec_primetest_of_isPrime rd (htwo ▸ rfl)
  case even => exact exec_primetest_of_not_isPrime rd (isPrime_of_even hgt heven)
  case divisor =>
    apply exec_primetest_of_not_isPrime
    rw [← Bool.not_eq_true, isPrime_eq_true_iff_of_odd hgt hodd]
    exact not_not_intro hdivisor
  case noDivisor =>
    exact exec_primetest_of_isPrime rd ((isPrime_eq_true_iff_of_odd hgt hodd).mpr hnone)
  case prime97 =>
    apply exec_primetest_of_isPrime
    rw [h97]
    decide
  case composite91 =>
    apply exec_primetest_of_not_isPrime
    rw [h91]
    decide

/-- Settles O39: the command writes the verdict, and the verdict is primality
(`isPrime_eq_true_iff`). -/
theorem primetestIsPrimality : Obligations.PrimetestIsPrimality := by
  refine fun s rd ra => ⟨fun hprime => ?prime, fun hcomposite => ?notPrime⟩
  case prime => exact exec_primetest_of_isPrime rd ((isPrime_eq_true_iff _).mpr hprime)
  case notPrime =>
    apply exec_primetest_of_not_isPrime
    rwa [← Bool.not_eq_true, isPrime_eq_true_iff]

end Sys2Proof.Machine
end

section
/-! SUPPORT. The building blocks of the host's procedures on an idle block (30_encoding.md R89, R90):
what each one answers there, and that it leaves the block idle again and in its invariant. -/

namespace Sys2Proof.Machine

/-! ### Procedures in sequence -/

theorem exists_of_andThen {α β : Type} {p : Proc α} {f : α → Proc β} {s t : State} {b : β}
    (h : andThen p f s = .next (b, t)) : ∃ a s', p s = .next (a, s') ∧ f a s' = .next (b, t) := by
  rw [andThen] at h
  cases hp : p s with
  | next r => exact ⟨r.1, r.2, rfl, by simpa [hp] using h⟩
  | fault r => simp [hp] at h
  | refused r => simp [hp] at h

/-- A procedure with a precondition answers a value only if that holds. -/
theorem of_requiring_ok {α : Type} {ok : State → Bool} {p : Proc (Except HostError α)} {s t : State}
    {a : α} (h : requiring ok p s = .next (.ok a, t)) : ok s = true ∧ p s = .next (.ok a, t) := by
  cases hok : ok s with
  | false => simp [requiring_of_fails hok] at h
  | true => exact ⟨rfl, by rwa [requiring_of_holds hok] at h⟩

/-! ### The block between two commands -/

/-- Where the host may issue the next command: the block, of `words` words a register, is idle and in
its invariant. -/
structure Ready (words : Nat) (s : State) : Prop where
  inv : Inv s
  idle : s.busy = false
  words_eq : s.words = words

/-- The obligations' two premises are those of `Ready` for the state's own width. -/
theorem Ready.of_inv {s : State} (hinv : Inv s) (hb : s.busy = false) : Ready s.words s :=
  ⟨hinv, hb, rfl⟩

/-- The procedure answers `a` and leaves the block ready again. -/
def Answers {α : Type} (words : Nat) (p : Proc α) (s : State) (a : α) : Prop :=
  ∃ t, p s = .next (a, t) ∧ Ready words t

theorem Answers.exists_next {α : Type} {words : Nat} {p : Proc α} {s : State} {a : α}
    (h : Answers words p s a) : ∃ t, p s = .next (a, t) := h.imp fun _ ht => ht.1

/-- A procedure has one answer. -/
theorem Answers.eq_of_next {α : Type} {words : Nat} {p : Proc α} {s t : State} {a b : α}
    (h : Answers words p s a) (hnext : p s = .next (b, t)) : b = a ∧ Ready words t := by
  obtain ⟨t', hp, ht'⟩ := h
  cases hp.symm.trans hnext
  exact ⟨rfl, ht'⟩

/-- A procedure that runs like another from where the other stands answers what the other does. -/
theorem Answers.of_eq {α : Type} {words : Nat} {p q : Proc α} {s u : State} {a : α}
    (heq : p s = q u) (h : Answers words q u a) : Answers words p s a := by
  rwa [Answers, heq]

section
variable {words : Nat} {s : State}

theorem Ready.width_eq (hs : Ready words s) : s.width = 32 * words := by
  rw [State.width, hs.words_eq]

theorem Ready.reg_lt (hs : Ready words s) (r : Reg) : s.reg r < 2 ^ (32 * words) := by
  obtain ⟨-, hregs, -, -⟩ := hs.inv
  exact hs.width_eq ▸ hregs r

/-- The host's record of reads is no part of it. -/
theorem Ready.with_reads (hs : Ready words s) (rs : List Word) :
    Ready words { s with reads := rs } := ⟨hs.inv, hs.idle, hs.words_eq⟩

theorem Ready.setReg (hs : Ready words s) (r : Reg) {v : Nat} (hv : v < 2 ^ (32 * words)) :
    Ready words (s.setReg r v) :=
  ⟨setReg_inv hs.inv r (hs.width_eq ▸ hv), hs.idle, hs.words_eq⟩

theorem exec_ready (hs : Ready words s) {i : Instr} {t : State} (h : exec i s = .next t) :
    Ready words t := by
  obtain ⟨hwidth, hregs, -, -⟩ := hs.inv
  rcases exec_cases i s with ⟨v, hv, hfit⟩ | ⟨c, hc, hv⟩
  · cases hv.symm.trans h
    exact ⟨normalCompletion_inv hs.inv i.dest (hfit hwidth.1 hregs), rfl, hs.words_eq⟩
  · cases hv.symm.trans h
    exact ⟨errorCompletion_inv hs.inv hc, rfl, hs.words_eq⟩

/-! ### LI and RD -/

theorem li_of_ready (hs : Ready words s) (r : Reg) {v : Nat} (hv : v < 2 ^ (32 * words)) :
    li r v s = .next ((), s.setReg r v) := by
  obtain ⟨hwidth, hregs, -, -⟩ := hs.inv
  exact li_eq hwidth hs.idle (hregs r) (hs.width_eq ▸ hv)

theorem rdReg_answers (hs : Ready words s) (r : Reg) : Answers words (rdReg r) s (s.reg r) := by
  obtain ⟨hwidth, hregs, -, -⟩ := hs.inv
  exact ⟨_, rdReg_eq hwidth (hregs r), hs.with_reads _⟩

/-! ### A command issued and waited for -/

/-- Acceptance and the polling of STATUS leave no trace in what a command ends with but the record of
reads: a completion writes everything acceptance wrote (10_state.md R31, R33, R35). -/
theorem exec_accept {i : Instr} {t : State} (h : exec i s = .next t) (w : Word) (rs : List Word) :
    exec i { accept s w with reads := rs } = .next { t with reads := rs } := by
  rcases exec_congr i (s := s) (s' := { accept s w with reads := rs }) rfl fun _ _ => rfl with
    ⟨v, hv, haccepted⟩ | ⟨c, hc, haccepted⟩
  · cases hv.symm.trans h
    exact haccepted
  · cases hc.symm.trans h
    exact haccepted

/-- Polling STATUS while the command runs only lengthens the record of reads. -/
theorem wait_of_busy {t : State} (polls : Nat) (hb : s.busy = true)
    (hcomplete : ∀ rs, complete { s with reads := rs } = .next { t with reads := rs }) :
    ∃ rs, wait polls s = .next (statusWord t, { t with reads := rs }) := by
  induction polls generalizing s with
  | zero =>
    have hsettle : settleEngine s = .next ((), { t with reads := s.reads }) := by
      rw [settleEngine, onBlock, if_pos hb, hcomplete s.reads]
    exact ⟨_, (andThen_of_next hsettle).trans (readWord_eq _ (by decide) (by decide))⟩
  | succ polls ih =>
    have hbit : (statusWord s).getLsbD 0 = true := by
      obtain ⟨_, hw, hbusy, -⟩ := statusWordLayout s
      rw [← readValue_status, hw, hbusy, hb]
    have hread := readWord_eq s (off := Config.statusOff) (by decide) (by decide)
    have hpoll : wait (polls + 1) s = wait polls (hostRead s Config.statusOff) := by
      rw [wait, andThen_of_next hread, Config.statusOff, readValue_status, if_pos hbit]
    exact hpoll ▸ ih hb hcomplete

end

theorem statusErr_statusWord (s : State) : statusErr (statusWord s) = s.err := by
  obtain ⟨_, rfl, -, -, herr, -⟩ := statusWordLayout s
  exact herr

theorem statusECode_statusWord (s : State) : statusECode (statusWord s) = s.ecode.code := by
  obtain ⟨_, rfl, -, -, -, -, hcode, -⟩ := statusWordLayout s
  exact hcode.trans (codeOf_eq_code _)

/-- Whatever the latency, a command issued on a ready block and waited for answers the STATUS word of
the state its meaning leaves, and leaves those registers. -/
theorem runCommand_of_exec {words : Nat} {s t : State} {i : Instr} (latency : State → Nat)
    (hs : Ready words s) (h : exec i s = .next t) :
    ∃ t', runCommand latency i s = .next (statusWord t, t') ∧ (∀ r, t'.reg r = t.reg r) ∧
      Ready words t' := by
  have hissue : writeWord Config.cmdOff (encode i) s = .next ((), accept s (encode i)) := by
    rw [writeWord_eq s _ (by decide) (by decide)]
    simp [hostWrite_cmd, Config.cmdOff, writeCmd, hs.idle]
  obtain ⟨rs, hwait⟩ := wait_of_busy (s := accept s (encode i)) (t := t)
    (latency (accept s (encode i))) rfl fun rs =>
      (complete_of_decode rfl rfl (decode_encode i)).trans (exec_accept h _ rs)
  exact ⟨_, (andThen_of_next hissue).trans hwait, fun _ => rfl, (exec_ready hs h).with_reads rs⟩

end Sys2Proof.Machine
end

section
/-! SUPPORT. The procedures of 45_host_procedures.md on a ready block: one command on loaded operands,
`encrypt` and `decrypt` (R186, R187), the text codec (R188), the tests of the draws (R180), the choice
of the public exponent (R183, R184) and key generation (R182). -/

namespace Sys2Proof.Machine

variable {words : Nat} {s : State}

/-! ### One command on operands in x0, x1, x2 -/

/-- `s` with the operands of a call in their registers. -/
def loaded (s : State) (a b n : Nat) : State := ((s.setReg 0 a).setReg 1 b).setReg 2 n

@[simp] theorem loaded_reg_zero (s : State) (a b n : Nat) : (loaded s a b n).reg 0 = a := by
  rw [loaded, State.reg_setReg_ne _ (by decide), State.reg_setReg_ne _ (by decide),
    State.reg_setReg_same]

@[simp] theorem loaded_reg_one (s : State) (a b n : Nat) : (loaded s a b n).reg 1 = b := by
  rw [loaded, State.reg_setReg_ne _ (by decide), State.reg_setReg_same]

@[simp] theorem loaded_reg_two (s : State) (a b n : Nat) : (loaded s a b n).reg 2 = n := by
  rw [loaded, State.reg_setReg_same]

theorem loadable_of_ready (hs : Ready words s) {values : List Nat}
    (h : ∀ v ∈ values, v < 2 ^ (32 * words)) : loadable values s = true := by
  rwa [loadable_iff, hs.width_eq]

/-- A call answers what its command's meaning gives for the operands: x3 of the state it leaves, or its
error as the document names it. -/
theorem callOnOperands_answers (latency : State → Nat) {i : Instr} {a b n : Nat} {t : State}
    (hs : Ready words s) (ha : a < 2 ^ (32 * words)) (hb : b < 2 ^ (32 * words))
    (hn : n < 2 ^ (32 * words)) (h : exec i (loaded s a b n) = .next t) :
    Answers words (callOnOperands latency i a b n) s
      (if t.err then .error (hostErrorOf t.ecode.code) else .ok (t.reg 3)) := by
  have h0 := hs.setReg 0 ha
  have h1 := h0.setReg 1 hb
  obtain ⟨t', hrun, hregs, ht'⟩ := runCommand_of_exec latency (h1.setReg 2 hn) h
  rw [Answers, callOnOperands, requiring_of_holds (loadable_of_ready hs (by simp [ha, hb, hn])),
    andThen_of_next (li_of_ready hs 0 ha), andThen_of_next (li_of_ready h0 1 hb),
    andThen_of_next (li_of_ready h1 2 hn), andThen_of_next hrun, statusErr_statusWord,
    statusECode_statusWord]
  cases t.err with
  | true => exact ⟨t', rfl, ht'⟩
  | false =>
    obtain ⟨u, hread, hu⟩ := rdReg_answers ht' 3
    exact ⟨u, hregs 3 ▸ andThen_of_next hread, hu⟩

/-! ### encrypt and decrypt -/

section
variable (latency : State → Nat) {m e n : Nat} (hs : Ready words s) (he : e < 2 ^ (32 * words))
  (hn : n < 2 ^ (32 * words))
include hs he hn

theorem encrypt_of_loadable (hm : m < 2 ^ (32 * words)) :
    encrypt latency m e n s = callOnOperands latency (.modexpc 3 0 1 2) m e n s := by
  rw [encrypt, requiring_of_holds (loadable_of_ready hs (by simp [he, hn])), hs.width_eq,
    if_neg hm.not_ge]

theorem encrypt_of_lt (hm : m < n) :
    Answers words (encrypt latency m e n) s (.ok (m ^ e % n)) := by
  have hexec := exec_modexpc_of_lt_modulus (s := loaded s m e n) (ra := 0) (rn := 2) 3 1
    (by simpa using hm)
  have hcall := callOnOperands_answers latency hs (hm.trans hn) he hn hexec
  exact .of_eq (encrypt_of_loadable latency hs he hn (hm.trans hn)) (by simpa using hcall)

/-- A message that is not below the modulus is too large, whether the block says so or the register
cannot hold it. -/
theorem encrypt_of_le (hm : n ≤ m) :
    Answers words (encrypt latency m e n) s (.error .messageTooLarge) := by
  by_cases hfit : m < 2 ^ (32 * words)
  · have hexec := exec_modexpc_of_modulus_le (s := loaded s m e n) (ra := 0) (rn := 2) 3 1
      (by simpa using hm)
    have hcall := callOnOperands_answers latency hs hfit he hn hexec
    exact .of_eq (encrypt_of_loadable latency hs he hn hfit)
      (by simpa [ECode.code, hostErrorOf] using hcall)
  · refine ⟨s, ?_, hs⟩
    rw [encrypt, requiring_of_holds (loadable_of_ready hs (by simp [he, hn])), hs.width_eq,
      if_pos (not_lt.mp hfit), answer]

/-- R188's text: the head's ciphertext or nothing, before the tail's. -/
theorem encryptCodes_answers (codes : List Nat) :
    Answers words (encryptCodes latency e n codes) s
      (.ok ((codes.filter fun m => decide (m < n)).map fun m => m ^ e % n)) := by
  induction codes generalizing s with
  | nil => exact ⟨s, rfl, hs⟩
  | cons m ms ih =>
    rw [Answers, encryptCodes]
    by_cases hm : m < n
    · obtain ⟨t, hhead, ht⟩ := encrypt_of_lt latency hs he hn hm
      obtain ⟨u, htail, hu⟩ := ih ht
      rw [andThen_of_next hhead, List.filter_cons_of_pos (by simpa using hm), List.map_cons]
      exact ⟨u, andThen_of_next htail, hu⟩
    · obtain ⟨t, hhead, ht⟩ := encrypt_of_le latency hs he hn (not_lt.mp hm)
      rw [andThen_of_next hhead, List.filter_cons_of_neg (by simpa using hm)]
      exact ih ht

end

section
variable (latency : State → Nat) {c d n : Nat} (hs : Ready words s) (hc : c < 2 ^ (32 * words))
  (hd : d < 2 ^ (32 * words))
include hs hc hd

theorem decrypt_of_modulus_ne_zero (hn : n < 2 ^ (32 * words)) (hne : n ≠ 0) :
    Answers words (decrypt latency c d n) s (.ok (c ^ d % n)) := by
  have hexec := exec_modexp_of_modulus_ne_zero (s := loaded s c d n) (rn := 2) 3 0 1
    (by simpa using hne)
  rw [decrypt]
  simpa using callOnOperands_answers latency hs hc hd hn hexec

theorem decrypt_of_modulus_zero :
    Answers words (decrypt latency c d 0) s (.error (.blockError 2)) := by
  have hexec := exec_modexp_of_modulus_zero (s := loaded s c d 0) (rn := 2) 3 0 1 (by simp)
  rw [decrypt]
  simpa [ECode.code, hostErrorOf] using
    callOnOperands_answers latency hs hc hd (Nat.two_pow_pos _) hexec

end

/-! ### The text codec -/

/-- A Unicode scalar value is the code point of its character. -/
theorem toNat_charOfCode {code : Nat} (h : code.isValidChar) : (charOfCode code).toNat = code := by
  rw [charOfCode_of_valid h, Char.toNat_ofNat, if_pos h]

/-! ### The tests of the draws -/

/-- A draw the host answers: one R180 admits, prime, and `wanted`. -/
abbrev Picked (bits : Nat) (wanted : Nat → Bool) (c : Nat) : Prop :=
  DrawOk bits c ∧ Nat.Prime c ∧ wanted c = true

/-- What PRIMETEST leaves in its destination is 1 for a prime and 0 otherwise. -/
theorem exec_primetest (s : State) (rd ra : Reg) :
    exec (.primetest rd ra) s = .next (normalCompletion s rd (isPrime (s.reg ra)).toNat) := rfl

section
variable {latency : State → Nat} {bits : Nat} {wanted : Nat → Bool} (hs : Ready words s)
  (hbits : bits ≤ 32 * words)
include hs hbits

/-- A draw is tested by the block, and its verdict is primality. -/
theorem samplePrime_cons_of_draw {c : Nat} (hc : DrawOk bits c) (rest : List Nat) :
    ∃ t, Ready words t ∧ samplePrime latency bits wanted (c :: rest) s =
      if Nat.Prime c ∧ wanted c = true then .next (.ok (c, rest), t)
      else samplePrime latency bits wanted rest t := by
  have hfit : c < 2 ^ (32 * words) :=
    (DrawOk_lt hc).trans_le (Nat.pow_le_pow_right (by decide) hbits)
  obtain ⟨t, hrun, hregs, ht⟩ :=
    runCommand_of_exec latency (hs.setReg 0 hfit) (exec_primetest _ 1 0)
  obtain ⟨u, hread, hu⟩ := rdReg_answers ht 1
  have hverdict : t.reg 1 = 1 ↔ Nat.Prime c := by
    rw [hregs, normalCompletion_reg_same, State.reg_setReg_same, Bool.toNat_eq_one,
      isPrime_eq_true_iff]
  refine ⟨u, hu, ?_⟩
  rw [samplePrime, if_pos (validDraw_iff.mpr hc), andThen_of_next (li_of_ready hs 0 hfit),
    andThen_of_next hrun, andThen_of_next hread]
  simp only [hverdict]
  split_ifs <;> rfl

theorem samplePrime_cons_of_picked {c : Nat} (hc : Picked bits wanted c) (rest : List Nat) :
    Answers words (samplePrime latency bits wanted (c :: rest)) s (.ok (c, rest)) := by
  obtain ⟨hdraw, htest⟩ := hc
  obtain ⟨t, ht, heq⟩ := samplePrime_cons_of_draw hs hbits hdraw rest
  exact ⟨t, heq.trans (if_pos htest), ht⟩

theorem samplePrime_cons_of_not_picked {c : Nat} (hc : ¬ Picked bits wanted c) (rest : List Nat) :
    ∃ t, Ready words t ∧ samplePrime latency bits wanted (c :: rest) s =
      samplePrime latency bits wanted rest t := by
  by_cases hdraw : DrawOk bits c
  · obtain ⟨t, ht, heq⟩ := samplePrime_cons_of_draw (latency := latency) hs hbits hdraw rest
    exact ⟨t, ht, heq.trans (if_neg fun htest => hc ⟨hdraw, htest⟩)⟩
  · exact ⟨s, hs, by rw [samplePrime_cons_of_not_draw hdraw]⟩

/-- Draws that are not picked leave the block ready for the draws after them. -/
theorem samplePrime_append {skipped : List Nat} (hskip : ∀ a ∈ skipped, ¬ Picked bits wanted a)
    (draws : List Nat) :
    ∃ t, Ready words t ∧ samplePrime latency bits wanted (skipped ++ draws) s =
      samplePrime latency bits wanted draws t := by
  induction skipped generalizing s with
  | nil => exact ⟨s, hs, rfl⟩
  | cons a as ih =>
    obtain ⟨ha, has⟩ := List.forall_mem_cons.mp hskip
    obtain ⟨t, ht, hhead⟩ := samplePrime_cons_of_not_picked (latency := latency) hs hbits ha
      (as ++ draws)
    obtain ⟨u, hu, htail⟩ := ih ht has
    exact ⟨u, hu, hhead.trans htail⟩

theorem samplePrime_of_first {skipped : List Nat} {c : Nat}
    (hskip : ∀ a ∈ skipped, ¬ Picked bits wanted a) (hc : Picked bits wanted c) (rest : List Nat) :
    Answers words (samplePrime latency bits wanted (skipped ++ c :: rest)) s (.ok (c, rest)) := by
  obtain ⟨t, ht, heq⟩ := samplePrime_append (latency := latency) hs hbits hskip (c :: rest)
  exact .of_eq heq (samplePrime_cons_of_picked ht hbits hc rest)

theorem samplePrime_of_none {draws : List Nat} (hnone : ∀ a ∈ draws, ¬ Picked bits wanted a) :
    Answers words (samplePrime latency bits wanted draws) s (.error .drawsExhausted) := by
  obtain ⟨t, ht, heq⟩ := samplePrime_append (latency := latency) hs hbits hnone []
  rw [List.append_nil] at heq
  exact ⟨t, heq, ht⟩

/-- What is answered was picked from the draws, and what is handed on are the draws after it. -/
theorem picked_of_samplePrime {draws : List Nat} {c : Nat} {rest : List Nat} {t : State}
    (h : samplePrime latency bits wanted draws s = .next (.ok (c, rest), t)) :
    Picked bits wanted c ∧ (∃ skipped, draws = skipped ++ c :: rest) ∧ Ready words t := by
  induction draws generalizing s with
  | nil => simp [samplePrime, answer] at h
  | cons a as ih =>
    by_cases ha : Picked bits wanted a
    · obtain ⟨heq, ht⟩ := (samplePrime_cons_of_picked hs hbits ha as).eq_of_next h
      cases heq
      exact ⟨ha, ⟨[], rfl⟩, ht⟩
    · obtain ⟨u, hu, heq⟩ := samplePrime_cons_of_not_picked (latency := latency) hs hbits ha as
      obtain ⟨hc, ⟨skipped, rfl⟩, ht⟩ := ih hu (heq ▸ h)
      exact ⟨hc, ⟨a :: skipped, rfl⟩, ht⟩

end

/-- A bit length R180 admits leaves the search through the draws. -/
theorem generatePrime_eq {latency : State → Nat} {bits : Nat} (draws : List Nat)
    (htwo : 2 ≤ bits) (hbits : bits ≤ s.width) :
    generatePrime latency bits draws s = samplePrime latency bits (fun _ => true) draws s :=
  requiring_of_holds (by simp [htwo, hbits])

/-! ### The public exponent -/

/-- One candidate of R183 put to MODINV, and what the host does if it is not invertible. -/
def tryExponent (latency : State → Nat) (e : Nat) (onError : Proc (Except HostError (Nat × Nat))) :
    Proc (Except HostError (Nat × Nat)) :=
  andThen (li 1 e) fun _ =>
  andThen (runCommand latency (.modinv 3 1 2)) fun st =>
    if statusErr st then onError else andThen (rdReg 3) fun d => answer (.ok (e, d))

theorem scanExponent_succ (latency : State → Nat) (phi fuel e : Nat) :
    scanExponent latency phi (fuel + 1) e =
      if e ≥ phi then answer (.error .keyGeneration)
      else tryExponent latency e (scanExponent latency phi fuel (e + 2)) := rfl

theorem chooseExponent_eq (latency : State → Nat) (phi : Nat) :
    chooseExponent latency phi = requiring (loadable [phi]) (andThen (li 2 phi) fun _ =>
      if 65537 < phi then tryExponent latency 65537 (answer (.error .modularInverseUndefined))
      else scanExponent latency phi phi 3) := rfl

section
variable {latency : State → Nat} {phi e : Nat} (hs : Ready words s) (hphi : s.reg 2 = phi)
  (he : e < phi)
include hs hphi he

theorem tryExponent_of_some {onError : Proc (Except HostError (Nat × Nat))} {d : Nat}
    (h : modInv? e phi = some d) : Answers words (tryExponent latency e onError) s (.ok (e, d)) := by
  have hfit : e < 2 ^ (32 * words) := he.trans (hphi ▸ hs.reg_lt 2)
  have hexec := exec_modinv_of_some (s := s.setReg 1 e) (ra := 1) (rn := 2) (d := d) 3
    (by rwa [State.reg_setReg_same, State.reg_setReg_ne _ (by decide), hphi])
  obtain ⟨t, hrun, hregs, ht⟩ := runCommand_of_exec latency (hs.setReg 1 hfit) hexec
  obtain ⟨u, hread, hu⟩ := rdReg_answers ht 3
  rw [hregs, normalCompletion_reg_same] at hread
  rw [Answers, tryExponent, andThen_of_next (li_of_ready hs 1 hfit), andThen_of_next hrun,
    statusErr_statusWord]
  exact ⟨u, andThen_of_next hread, hu⟩

/-- A failed MODINV writes no register, so the totient is still in x2. -/
theorem tryExponent_of_none (onError : Proc (Except HostError (Nat × Nat)))
    (h : modInv? e phi = none) :
    ∃ t, Ready words t ∧ t.reg 2 = phi ∧ tryExponent latency e onError s = onError t := by
  have hfit : e < 2 ^ (32 * words) := he.trans (hphi ▸ hs.reg_lt 2)
  have hkept : (s.setReg 1 e).reg 2 = phi := by rw [State.reg_setReg_ne _ (by decide), hphi]
  have hexec := exec_modinv_of_none (s := s.setReg 1 e) (ra := 1) (rn := 2) 3
    (by rwa [State.reg_setReg_same, hkept])
  obtain ⟨t, hrun, hregs, ht⟩ := runCommand_of_exec latency (hs.setReg 1 hfit) hexec
  refine ⟨t, ht, by rw [hregs, errorCompletion_reg, hkept], ?_⟩
  rw [tryExponent, andThen_of_next (li_of_ready hs 1 hfit), andThen_of_next hrun,
    statusErr_statusWord]
  rfl

end

/-- The scan answers the first invertible candidate of `e, e + 2, ..`, with its inverse. -/
theorem scanExponent_ok {latency : State → Nat} {phi fuel e e' d : Nat} {t : State}
    (hs : Ready words s) (hphi : s.reg 2 = phi)
    (h : scanExponent latency phi fuel e s = .next (.ok (e', d), t)) :
    modInv? e' phi = some d ∧ e ≤ e' ∧ e' % 2 = e % 2 ∧
      ∀ a, a % 2 = e % 2 → e ≤ a → a < e' → modInv? a phi = none := by
  induction fuel generalizing s e with
  | zero => simp [scanExponent, answer] at h
  | succ fuel ih =>
    rw [scanExponent_succ] at h
    split_ifs at h with he
    · simp [answer] at h
    · cases hinv : modInv? e phi with
      | some d' =>
        obtain ⟨heq, -⟩ := (tryExponent_of_some hs hphi (not_le.mp he) hinv).eq_of_next h
        cases heq
        exact ⟨hinv, le_rfl, rfl, fun a _ hle hlt => absurd hlt hle.not_gt⟩
      | none =>
        obtain ⟨u, hu, hphi', heq⟩ := tryExponent_of_none (latency := latency) hs hphi
          (not_le.mp he) (scanExponent latency phi fuel (e + 2)) hinv
        obtain ⟨hfound, hle, hparity, hearlier⟩ := ih hu hphi' (heq ▸ h)
        refine ⟨hfound, by omega, by omega, fun a hmod hge hlt => ?_⟩
        rcases eq_or_ne a e with rfl | hne
        · exact hinv
        · exact hearlier a (by omega) (by omega) hlt

/-- The exponent is 65537 where that is below the totient, and otherwise the smallest invertible odd
one from 3 on (45_host_procedures.md R183, R184). -/
theorem chooseExponent_ok {latency : State → Nat} {phi e d : Nat} {t : State} (hs : Ready words s)
    (h : chooseExponent latency phi s = .next (.ok (e, d), t)) :
    modInv? e phi = some d ∧ (65537 < phi → e = 65537) ∧
      (phi ≤ 65537 → e % 2 = 1 ∧ 3 ≤ e ∧
        ∀ a, a % 2 = 1 → 3 ≤ a → a < e → modInv? a phi = none) := by
  rw [chooseExponent_eq] at h
  obtain ⟨hload, h⟩ := of_requiring_ok h
  have hfit : phi < 2 ^ (32 * words) := hs.width_eq ▸ loadable_iff.mp hload phi (by simp)
  rw [andThen_of_next (li_of_ready hs 2 hfit)] at h
  have hs' := hs.setReg 2 hfit
  have hphi := State.reg_setReg_same s 2 phi
  split_ifs at h with hbig
  · cases hinv : modInv? 65537 phi with
    | some d' =>
      obtain ⟨heq, -⟩ := (tryExponent_of_some hs' hphi hbig hinv).eq_of_next h
      cases heq
      exact ⟨hinv, fun _ => rfl, fun hle => absurd hle hbig.not_ge⟩
    | none =>
      obtain ⟨u, -, -, heq⟩ := tryExponent_of_none (latency := latency) hs' hphi hbig
        (answer (.error .modularInverseUndefined)) hinv
      simp [heq, answer] at h
  · obtain ⟨hinv, hge, hodd, hleast⟩ := scanExponent_ok hs' hphi h
    exact ⟨hinv, fun hlt => absurd hlt hbig, fun _ => ⟨hodd, hge, hleast⟩⟩

/-! ### A key pair -/

/-- A key pair is answered only after two draws were picked, the second one different, and an exponent
was chosen for their totient. -/
theorem generateKeys_ok {latency : State → Nat} {bits : Nat} {draws : List Nat} {k : KeyPair}
    {t : State} (hs : Ready words s) (h : generateKeys latency bits draws s = .next (.ok k, t)) :
    2 ≤ bits ∧ 2 * bits ≤ 32 * words ∧ k.n = k.p * k.q ∧
      Picked bits (fun _ => true) k.p ∧ k.p ∈ draws ∧
      Picked bits (fun c => decide (c ≠ k.p)) k.q ∧ k.q ∈ draws ∧
      ∃ u v, Ready words u ∧
        chooseExponent latency ((k.p - 1) * (k.q - 1)) u = .next (.ok (k.e, k.d), v) := by
  obtain ⟨hlength, hrun⟩ := of_requiring_ok h
  simp only [Bool.and_eq_true, decide_eq_true_eq, hs.width_eq] at hlength
  obtain ⟨htwo, hdouble⟩ := hlength
  have hbits : bits ≤ 32 * words := by omega
  obtain ⟨_ | ⟨p, rest⟩, u, hfirst, hrun⟩ := exists_of_andThen hrun
  · simp [answer] at hrun
  obtain ⟨_ | ⟨q, _⟩, v, hsecond, hrun⟩ := exists_of_andThen hrun
  · simp [answer] at hrun
  obtain ⟨_ | ⟨e, d⟩, w, hchosen, hrun⟩ := exists_of_andThen hrun
  · simp [answer] at hrun
  cases hrun
  rw [generatePrime_eq draws htwo (hs.width_eq ▸ hbits)] at hfirst
  obtain ⟨hp, ⟨skipped, hdraws⟩, hu⟩ := picked_of_samplePrime hs hbits hfirst
  obtain ⟨hq, ⟨skipped', hrest⟩, hv⟩ := picked_of_samplePrime hu hbits hsecond
  exact ⟨htwo, hdouble, rfl, hp, by simp [hdraws], hq, by simp [hdraws, hrest], v, t, hv, hchosen⟩

end Sys2Proof.Machine
end

section
/-! PROOFS. The host's procedures (45_host_procedures.md): primes, key pairs, encryption, decryption,
texts, and the preconditions. -/

namespace Sys2Proof.Machine

/-- Settles O54: the search passes over what is not picked (`samplePrime_append`), stops at the first
draw that is, and answers nothing else. -/
theorem generatePrimeFindsFirstPrime : Obligations.GeneratePrimeFindsFirstPrime := by
  intro latency bits draws s hinv hb htwo hbits
  have hs := Ready.of_inv hinv hb
  have hpicked (a : Nat) : Picked bits (fun _ => true) a ↔ DrawOk bits a ∧ Nat.Prime a := by simp
  simp only [generatePrime_eq draws htwo hbits, ← hpicked]
  refine ⟨fun skipped c rest hdraws hskip hc hprime => ?first, fun hnone => ?exhausted,
    fun p rest t h => ?answered⟩
  case first =>
    subst hdraws
    exact (samplePrime_of_first hs hbits hskip ⟨hc, hprime, rfl⟩ rest).exists_next
  case exhausted => exact (samplePrime_of_none hs hbits hnone).exists_next
  case answered =>
    obtain ⟨⟨hdraw, hprime, -⟩, ⟨skipped, rfl⟩, -⟩ := picked_of_samplePrime hs hbits h
    refine ⟨by simp, hdraw.2.1, DrawOk_lt hdraw, valueOf_eq_ok ?_⟩
    exact exec_primetest_of_isPrime 3 ((isPrime_eq_true_iff _).mpr hprime)

/-- Settles O55: the primes were picked from the draws (`generateKeys_ok`), which are odd, so the totient
is at least 4; the exponent is the rule's (`chooseExponent_ok`), and MODINV's verdict on a candidate
is coprimality. -/
theorem generatedKeysAreAKeyPair : Obligations.GeneratedKeysAreAKeyPair := by
  intro latency bits draws s t k hinv hb h
  obtain ⟨htwo, hdouble, hn, ⟨hpdraw, hpprime, -⟩, hpmem, ⟨hqdraw, hqprime, hqwanted⟩, hqmem,
    u, v, hu, hchosen⟩ := generateKeys_ok (Ready.of_inv hinv hb) h
  obtain ⟨hinvert, hlarge, hsmall⟩ := chooseExponent_ok hu hchosen
  have hne : k.p ≠ k.q := fun heq => by simp [heq] at hqwanted
  have hfit : k.n < 2 ^ s.width := by
    calc k.n = k.p * k.q := hn
      _ < 2 ^ bits * 2 ^ bits := Nat.mul_lt_mul'' (DrawOk_lt hpdraw) (DrawOk_lt hqdraw)
      _ = 2 ^ (2 * bits) := by rw [← pow_add, two_mul]
      _ ≤ 2 ^ s.width := Nat.pow_le_pow_right (by decide) hdouble
  have htotient : 2 * 2 ≤ (k.p - 1) * (k.q - 1) := by
    have hp := hpprime.two_le
    have hq := hqprime.two_le
    obtain ⟨hpodd, -⟩ := hpdraw
    obtain ⟨hqodd, -⟩ := hqdraw
    exact Nat.mul_le_mul (by omega) (by omega)
  obtain ⟨hd, hed⟩ := modInv?_spec hinvert
  have hone : 1 % ((k.p - 1) * (k.q - 1)) = 1 := Nat.mod_eq_of_lt (by omega)
  refine ⟨hpprime, hqprime, hne, hpmem, hqmem, hpdraw, hqdraw, hn, hfit, hed.trans hone, hd, hlarge,
    fun hle => ?_⟩
  obtain ⟨hodd, hthree, hleast⟩ := hsmall hle
  refine ⟨hodd, hthree, fun e he hge hlt => ?_⟩
  exact ((modInv?_eq_none_iff _ _).mp (hleast e he hge hlt)).resolve_left (by omega)

/-- Settles O57: below the modulus MODEXPC computes the power, and every other message is too large
(`encrypt_of_le`). -/
theorem encryptChecksAndComputes : Obligations.EncryptChecksAndComputes := by
  intro latency s m e n hinv hb he hn
  have hs := Ready.of_inv hinv hb
  exact ⟨fun hm => (encrypt_of_lt latency hs he hn hm).exists_next,
    fun hm => (encrypt_of_le latency hs he hn hm).exists_next⟩

/-- Settles O58: MODEXP has no domain check, and its one error is modulus 0's. -/
theorem decryptComputes : Obligations.DecryptComputes := by
  intro latency s c d n hinv hb hc hd hn
  have hs := Ready.of_inv hinv hb
  refine ⟨fun hne => (decrypt_of_modulus_ne_zero latency hs hc hd hn hne).exists_next, ?_⟩
  rintro rfl
  exact (decrypt_of_modulus_zero latency hs hc hd).exists_next

/-- Settles O59: by the list of code points (`encryptCodes_answers`), each call leaving the block ready
for the next one. -/
theorem textEncryptionSkipsOversized : Obligations.TextEncryptionSkipsOversized :=
  fun latency _ _ _ codes hinv hb he hn =>
    (encryptCodes_answers latency (Ready.of_inv hinv hb) he hn codes).exists_next

/-- Settles O56: each procedure begins with its precondition (`requiring_of_fails`). -/
theorem preconditionsAreChecked : Obligations.PreconditionsAreChecked := by
  intro latency s bits draws m e n
  refine ⟨fun hbits => requiring_of_fails ?prime, fun hbits => requiring_of_fails ?keys,
    fun hargs => requiring_of_fails ?encrypt, fun hargs => requiring_of_fails ?decrypt⟩
  case prime =>
    simp only [Bool.and_eq_false_iff, decide_eq_false_iff_not]
    omega
  case keys =>
    simp only [Bool.and_eq_false_iff, decide_eq_false_iff_not]
    omega
  case encrypt | decrypt =>
    rw [← Bool.not_eq_true, loadable_iff]
    simp only [List.forall_mem_cons]
    omega

/-- Settles O60: `charOfCode` and `Char.toNat` undo each other, one by one, on the characters and on the
numbers that have one. -/
theorem textCodecRoundTrip : Obligations.TextCodecRoundTrip := by
  refine ⟨fun text => ?text, fun codes hvalid => ?codes⟩
  case text =>
    have hchars := List.map_id'' (f := charOfCode ∘ Char.toNat) charOfCode_toNat text.toList
    rw [integersToText, textToIntegers, List.map_map, hchars, String.ofList_toList]
  case codes =>
    rw [textToIntegers, integersToText, String.toList_ofList, List.map_map]
    exact (List.map_congr_left fun n hn => toNat_charOfCode (hvalid n hn)).trans (List.map_id codes)

end Sys2Proof.Machine
end

section
/-! SUPPORT. The code each command ends with, as 60_exceptions.md R203's table gives it, and the
interrupt line after a completion and after a write to a busy block (R206, R207). -/

namespace Sys2Proof.Machine

/-! ### The code of a command -/

/-- 60_exceptions.md R203's table: the code a command ends with on the registers of `s`, 0 being the
normal end. -/
def endCode (s : State) : Instr → Nat
  | .mulmod _ _ _ rn => if s.reg rn = 0 then 2 else 0
  | .montmul _ _ _ rn => if s.reg rn = 0 then 2 else if s.reg rn % 2 = 0 then 5 else 0
  | .modexp _ _ _ rn => if s.reg rn = 0 then 2 else 0
  | .modexpc _ ra _ rn => if s.reg ra ≥ s.reg rn then 3 else 0
  | .modinv _ ra rn => if s.reg rn = 0 ∨ Nat.gcd (s.reg ra) (s.reg rn) ≠ 1 then 4 else 0
  | .primetest _ _ => 0

/-- Code 1 is in no row of the table: no command raises ILLEGAL_CMD. -/
theorem endCode_ne_one (s : State) (i : Instr) : endCode s i ≠ 1 := by
  cases i with
  | primetest rd ra => exact Nat.zero_ne_one
  | _ => simp only [endCode]; split_ifs <;> decide

/-- Every command ends with the code of its row. -/
theorem exec_endCode (i : Instr) (s : State) :
    ∃ t, exec i s = .next t ∧ codeOf t.ecode = endCode s i := by
  cases i with
  | mulmod rd ra rb rn =>
    by_cases hzero : s.reg rn = 0
    · exact ⟨_, exec_mulmod_of_modulus_zero rd ra rb hzero, (if_pos hzero).symm⟩
    · exact ⟨_, exec_mulmod_of_modulus_ne_zero rd ra rb hzero, (if_neg hzero).symm⟩
  | montmul rd ra rb rn =>
    by_cases hzero : s.reg rn = 0
    · exact ⟨_, exec_montmul_of_modulus_zero rd ra rb hzero, (if_pos hzero).symm⟩
    by_cases heven : s.reg rn % 2 = 0
    · exact ⟨_, exec_montmul_of_modulus_even rd ra rb hzero heven,
        ((if_neg hzero).trans (if_pos heven)).symm⟩
    · exact ⟨_, exec_montmul_of_modulus_odd rd ra rb (by omega),
        ((if_neg hzero).trans (if_neg heven)).symm⟩
  | modexp rd ra rb rn =>
    by_cases hzero : s.reg rn = 0
    · exact ⟨_, exec_modexp_of_modulus_zero rd ra rb hzero, (if_pos hzero).symm⟩
    · exact ⟨_, exec_modexp_of_modulus_ne_zero rd ra rb hzero, (if_neg hzero).symm⟩
  | modexpc rd ra rb rn =>
    by_cases hlarge : s.reg ra ≥ s.reg rn
    · exact ⟨_, exec_modexpc_of_modulus_le rd rb hlarge, (if_pos hlarge).symm⟩
    · exact ⟨_, exec_modexpc_of_lt_modulus rd rb (by omega), (if_neg hlarge).symm⟩
  | modinv rd ra rn =>
    have hnone := modInv?_eq_none_iff (s.reg ra) (s.reg rn)
    cases hinv : modInv? (s.reg ra) (s.reg rn) with
    | none => exact ⟨_, exec_modinv_of_none rd hinv, (if_pos (hnone.mp hinv)).symm⟩
    | some d =>
      rw [hinv, iff_false_left (Option.some_ne_none d)] at hnone
      exact ⟨_, exec_modinv_of_some rd hinv, (if_neg hnone).symm⟩
  | primetest rd ra => exact ⟨_, exec_primetest s rd ra, rfl⟩

/-! ### The interrupt line -/

/-- Only the offset of CTRL names CTRL (10_state.md R24). -/
theorem targetOf_eq_ctrl {words off : Nat} (h : targetOf words off = .ctrl) : off = 0x008 := by
  simp only [targetOf] at h
  split_ifs at h
  assumption

/-- A completion leaves DONE set and IE as it was (60_exceptions.md R206). -/
theorem complete_done_ie {s t : State} (h : complete s = .next t) :
    t.done = true ∧ t.ie = s.ie := by
  rcases complete_ends h with ⟨r, v, rfl, -⟩ | ⟨c, -, rfl⟩ <;> exact ⟨rfl, rfl⟩

theorem irq_of_done_eq_false {s : State} (h : s.done = false) : irq s = false := by
  rw [irq, h, Bool.and_false]

/-- On a busy block a write either is discarded, which sets OVR alone, or goes to a register: STATUS
keeps DONE while BUSY, and only CTRL holds IE (10_state.md R34, R36, 60_exceptions.md R206). -/
theorem irq_hostWrite_of_busy {s : State} {off : Nat} (v : Word) (hb : s.busy = true)
    (hoff : off ≠ 0x008) : irq (hostWrite s off v) = irq s := by
  rw [hostWrite]
  cases htarget : targetOf s.words off with
  | cmd => simp [writeCmd, hb, irq]
  | status => simp [writeStatus_eq, hb, irq]
  | ctrl => exact absurd (targetOf_eq_ctrl htarget) hoff
  | param => rfl
  | operand r k => simp [writeOperand, hb, irq]
  | reserved => rfl

end Sys2Proof.Machine
end

section
/-! PROOFS. The exceptions family (60_exceptions.md): the error completion, the code of each command,
and the interrupt line. -/

namespace Sys2Proof.Machine

/-- Settles O20: of the two ends of a completion (`complete_ends`) the normal one clears ERR, and the
error one is `raise Error(c)` with a code. -/
theorem errorCompletionWritesStatusOnly : Obligations.ErrorCompletionWritesStatusOnly := by
  intro s t hstep herr
  rw [step_before_complete] at hstep
  rcases complete_ends hstep with ⟨r, v, rfl, -⟩ | ⟨c, hc, rfl⟩
  · simp at herr
  · exact ⟨rfl, hc⟩

/-- Settles O24: an illegal word completes with code 1 before any command runs, and a legal one with the
code of its command's row (`exec_endCode`), which is never 1. -/
theorem errorCodeOfEachCommand : Obligations.ErrorCodeOfEachCommand := by
  refine ⟨fun s t w hb hw hstep => ?illegal, fun s rd ra rb rn =>
    ⟨exec_endCode (.mulmod rd ra rb rn) s, exec_endCode (.montmul rd ra rb rn) s,
      exec_endCode (.modexp rd ra rb rn) s, exec_endCode (.modexpc rd ra rb rn) s,
      exec_endCode (.modinv rd ra rn) s, exec_endCode (.primetest rd ra) s⟩⟩
  case illegal =>
    rw [step_before_complete] at hstep
    cases hlegal : isIllegal w with
    | true =>
      obtain rfl := Host.Outcome.next.inj ((complete_of_illegal hb hw hlegal).symm.trans hstep)
      exact iff_of_true rfl rfl
    | false =>
      obtain ⟨i, hd⟩ := (isIllegal_eq_false_iff w).mp hlegal
      obtain ⟨t', hexec, hcode⟩ := exec_endCode i s
      rw [complete_of_decode hb hw hd, hexec, Host.Outcome.next.injEq] at hstep
      subst hstep
      exact iff_of_false (hcode ▸ endCode_ne_one s i) (by decide)

/-- Settles O52: a completion sets DONE under the enable it finds (`complete_done_ie`); the acknowledging
write, acceptance and reset clear DONE; a CTRL write stores IE alone; and a busy block's other writes
reach neither bit (`irq_hostWrite_of_busy`). -/
theorem interruptLine : Obligations.InterruptLine := by
  refine ⟨fun s => rfl, ?completion, ?acceptance, ?acknowledge, ?reset, ?enable, ?busy⟩
  case completion =>
    intro s t hstep
    rw [step_before_complete] at hstep
    obtain ⟨hdone, hie⟩ := complete_done_ie hstep
    exact ⟨hdone, by rw [irq, hdone, hie, Bool.and_true], hie⟩
  case acceptance =>
    intro s w hb
    exact ⟨_, acceptanceOfAnyWord s w hb, rfl, irq_of_done_eq_false rfl⟩
  case acknowledge =>
    intro s v hstatus hack
    have hdone : (writeStatus s v).done = false := by
      cases hb : s.busy with
      | true => simp [writeStatus_eq, (hstatus.1 hb).1]
      | false => simp [writeStatus_eq, hack, hb]
    exact ⟨_, step_beforeWrite s v (by decide) (by decide), hdone, irq_of_done_eq_false hdone⟩
  case reset =>
    intro s
    exact ⟨applyReset s, step_before_reset s, rfl, rfl, rfl⟩
  case enable =>
    intro s v
    exact ⟨writeCtrl s v, step_beforeWrite s v (by decide) (by decide), rfl, rfl⟩
  case busy =>
    intro s t off v hb hoff _ hstep
    rcases transact_cases (op := .write off v) (s := s) hstep with
      ⟨_, hop, -⟩ | ⟨off', v', hop, -, -, rfl⟩
    · cases hop
    · obtain ⟨rfl, rfl⟩ := HostOp.write.inj hop
      exact irq_hostWrite_of_busy v hb hoff

end Sys2Proof.Machine
end

section
/-! SUPPORT. A command in flight between acceptance and its end: its completion always answers, and no
transaction of the host reaches it (10_state.md R32, R34, 20_memory.md R66). -/

namespace Sys2Proof.Machine

/-- A busy block with a word in flight completes: a legal word by its command, an illegal one with
Error(1) (10_state.md R32). -/
theorem exists_complete_eq_next {s : State} {w : Word} (hb : s.busy = true)
    (hw : s.inflight = some w) :
    ∃ t, complete s = .next t ∧ t.busy = false ∧ t.done = true ∧ t.inflight = none := by
  cases hlegal : isIllegal w with
  | true => exact ⟨_, complete_of_illegal hb hw hlegal, rfl, rfl, rfl⟩
  | false =>
    obtain ⟨i, hd⟩ := (isIllegal_eq_false_iff w).mp hlegal
    obtain ⟨t, hexec, hbusy, hdone, hinflight, -⟩ := execAlwaysAnswers i s
    exact ⟨t, (complete_of_decode hb hw hd).trans hexec, hbusy, hdone, hinflight⟩

/-- On a busy block a host write leaves BUSY, the word in flight and every register: the two effects
that would not, acceptance and an operand write, happen on an idle block only (10_state.md R34). -/
theorem hostWrite_of_busy {s : State} (hb : s.busy = true) (off : Nat) (v : Word) :
    (hostWrite s off v).busy = true ∧ (hostWrite s off v).inflight = s.inflight ∧
      (hostWrite s off v).x = s.x := by
  rcases hostWrite_cases s off v with
    he | ⟨hidle, -⟩ | ⟨-, he⟩ | ⟨-, he⟩ | he | ⟨hidle, -⟩
  · rw [he]
    exact ⟨hb, rfl, rfl⟩
  · exact absurd (hb.symm.trans hidle) (by decide)
  · rw [he]
    exact ⟨hb, rfl, rfl⟩
  · rw [he, writeStatus_eq]
    exact ⟨hb, rfl, rfl⟩
  · rw [he]
    exact ⟨hb, rfl, rfl⟩
  · exact absurd (hb.symm.trans hidle) (by decide)

end Sys2Proof.Machine
end

section
/-! PROOFS. The reset and hazards family (70_reset_and_hazards.md): every accepted word completes, the
host cannot disturb it, reset discards it, and the record of what the host read. -/

namespace Sys2Proof.Machine

/-- Settles O17: BUSY means a word in flight (`LatchOk`), legal or not, and either way its completion
answers (`exists_complete_eq_next`). -/
theorem acceptedCommandCompletes : Obligations.AcceptedCommandCompletes := by
  intro s hb hlatch
  obtain ⟨w, hw⟩ := Option.isSome_iff_exists.mp (hlatch.trans hb)
  rw [step_before_complete]
  exact exists_complete_eq_next hb hw

/-- Settles O18: a performed access is a read, which only the host's record sees, or a write to a busy
block (`hostWrite_of_busy`). -/
theorem hostCannotDisturbACommand : Obligations.HostCannotDisturbACommand := by
  intro s t op hb hstep
  rw [step_before, perform] at hstep
  rcases transact_cases hstep with ⟨off, -, -, -, rfl⟩ | ⟨off, v, -, -, -, rfl⟩
  · exact ⟨hb, rfl, rfl⟩
  · exact hostWrite_of_busy hb off v

/-- Settles O2: the reset step is `applyReset`, which leaves R39's values in the build's width, and an
idle block accepts any word (`acceptanceOfAnyWord`). -/
theorem resetFromAnyState : Obligations.ResetFromAnyState := by
  intro s
  exact ⟨applyReset s, step_before_reset s, applyReset_reg s, rfl, rfl, applyReset_inflight s,
    irq_of_done_eq_false (applyReset_done s), applyReset_words s,
    fun w => acceptanceOfAnyWord (applyReset s) w (applyReset_busy s)⟩

/-- Settles O3: `applyReset` clears STATUS and every register whatever was in flight, and leaves BUSY 0,
which refuses a completion (`complete_of_idle`). -/
theorem resetDiscardsTheCommand : Obligations.ResetDiscardsTheCommand := by
  intro s _ _ _
  exact ⟨applyReset s, step_before_reset s, applyReset_busy s, applyReset_done s, applyReset_err s,
    applyReset_ecode s, irq_of_done_eq_false (applyReset_done s), applyReset_reg s,
    applyReset_schedule s,
    (step_before_complete _).trans (complete_of_idle (applyReset_busy s))⟩

/-- Settles O45: a read inside the window is performed (`step_beforeRead`), and its effect `hostRead`
is to append the value read. -/
theorem readValuesAreRecorded : Obligations.ReadValuesAreRecorded := by
  intro s off halign hlt
  rw [step_beforeRead s halign hlt, hostRead]

end Sys2Proof.Machine
end
